-- ==== Sys2Proof/Word.lean ====
section
/-! DEFINITION. The widths of the values of CORE (00_scope.md R10): bytes, 16-bit words, register numbers. -/

namespace Sys2Proof

/-- A general register, a memory cell, a timer, `kk`, the random byte: 8 bits (00_scope.md R10). -/
abbrev Byte := BitVec 8

/-- `I`, `pc`, a stack entry, an instruction word: 16 bits (00_scope.md R10). -/
abbrev Word := BitVec 16

/-- A register number, 0 to 15 (10_state.md R21). -/
abbrev Reg := Fin 16

/-- VF, general register 15 (10_state.md R22). -/
abbrev vf : Reg := 15

end Sys2Proof
end

