-- ==== Sys2Proof/Decode.lean ====
section
/-! DEFINITION. The decoder of 30_encoding.md (Tables R81 and R84, rules R84, R85, R89), and after it the encoder
(R82, R90). -/

namespace Sys2Proof

/-- Why the decoder gives no instruction. -/
inductive DecodeError where
  /-- The word matches no row of Table R84 (30_encoding.md R85). -/
  | unsupported (w : Word)
  /-- Fewer than two bytes: no instruction is that short (30_encoding.md R80). -/
  | truncated
  deriving DecidableEq, Repr

/-- The field `op`, the family selector: bits 15:12 (Table R81). -/
def fieldOp (w : Word) : BitVec 4 := w.extractLsb' 12 4

/-- The field `x`: bits 11:8 (Table R81). -/
def fieldX (w : Word) : Reg := (w.extractLsb' 8 4).toFin

/-- The field `y`: bits 7:4 (Table R81). -/
def fieldY (w : Word) : Reg := (w.extractLsb' 4 4).toFin

/-- The field `n`: bits 3:0 (Table R81). -/
def fieldN (w : Word) : BitVec 4 := w.extractLsb' 0 4

/-- The field `kk`: bits 7:0 (Table R81). -/
def fieldKK (w : Word) : Byte := w.extractLsb' 0 8

/-- The field `nnn`: bits 11:0 (Table R81). -/
def fieldNNN (w : Word) : BitVec 12 := w.extractLsb' 0 12

/-- Family 0: the whole word is fixed (R84). -/
def decodeFamily0 (w : Word) : Except DecodeError Instr :=
  if w = 0x00E0#16 then .ok .cls
  else if w = 0x00EE#16 then .ok .ret
  else .error (.unsupported w)

/-- Family 8: selected by the low nibble (R84, 90_conflicts.md C7). -/
def decodeFamily8 (w : Word) : Except DecodeError Instr :=
  match (fieldN w).toNat with
  | 0 => .ok (.ldReg (fieldX w) (fieldY w))
  | 1 => .ok (.orReg (fieldX w) (fieldY w))
  | 2 => .ok (.andReg (fieldX w) (fieldY w))
  | 3 => .ok (.xorReg (fieldX w) (fieldY w))
  | 4 => .ok (.addReg (fieldX w) (fieldY w))
  | 5 => .ok (.subReg (fieldX w) (fieldY w))
  | 6 => .ok (.shr (fieldX w) (fieldY w))
  | 7 => .ok (.subnReg (fieldX w) (fieldY w))
  | 0xE => .ok (.shl (fieldX w) (fieldY w))
  | _ => .error (.unsupported w)

/-- Family E: selected by the low byte (R84). -/
def decodeFamilyE (w : Word) : Except DecodeError Instr :=
  if fieldKK w = 0x9E#8 then .ok (.skp (fieldX w))
  else if fieldKK w = 0xA1#8 then .ok (.sknp (fieldX w))
  else .error (.unsupported w)

/-- Family F: selected by the low byte (R84). -/
def decodeFamilyF (w : Word) : Except DecodeError Instr :=
  if fieldKK w = 0x07#8 then .ok (.ldVxDt (fieldX w))
  else if fieldKK w = 0x0A#8 then .ok (.ldVxKey (fieldX w))
  else if fieldKK w = 0x15#8 then .ok (.ldDtVx (fieldX w))
  else if fieldKK w = 0x18#8 then .ok (.ldStVx (fieldX w))
  else if fieldKK w = 0x1E#8 then .ok (.addI (fieldX w))
  else if fieldKK w = 0x29#8 then .ok (.ldFont (fieldX w))
  else if fieldKK w = 0x33#8 then .ok (.ldBcd (fieldX w))
  else if fieldKK w = 0x55#8 then .ok (.storeRegs (fieldX w))
  else if fieldKK w = 0x65#8 then .ok (.loadRegs (fieldX w))
  else .error (.unsupported w)

/-- `decode(w)` of 30_encoding.md R89: a total function of the word alone. -/
def decode (w : Word) : Except DecodeError Instr :=
  match (fieldOp w).toNat with
  | 0x0 => decodeFamily0 w
  | 0x1 => .ok (.jp (fieldNNN w))
  | 0x2 => .ok (.call (fieldNNN w))
  | 0x3 => .ok (.seImm (fieldX w) (fieldKK w))
  | 0x4 => .ok (.sneImm (fieldX w) (fieldKK w))
  | 0x5 => if fieldN w = 0 then .ok (.seReg (fieldX w) (fieldY w)) else .error (.unsupported w)
  | 0x6 => .ok (.ldImm (fieldX w) (fieldKK w))
  | 0x7 => .ok (.addImm (fieldX w) (fieldKK w))
  | 0x8 => decodeFamily8 w
  | 0x9 => if fieldN w = 0 then .ok (.sneReg (fieldX w) (fieldY w)) else .error (.unsupported w)
  | 0xA => .ok (.ldI (fieldNNN w))
  | 0xB => .ok (.jpV0 (fieldNNN w))
  | 0xC => .ok (.rnd (fieldX w) (fieldKK w))
  | 0xD => .ok (.drw (fieldX w) (fieldY w) (fieldN w).toNat)
  | 0xE => decodeFamilyE w
  | _ => decodeFamilyF w

/-- The word of two bytes, the first of them the high one (20_memory.md R54). -/
def wordOfBytes (hi lo : Byte) : Word := hi ++ lo

/-- The decoder on bytes: it takes the first two, big-endian, and returns the rest (30_encoding.md R80). -/
def decodeBytes : List Byte → Except DecodeError (Instr × List Byte)
  | hi :: lo :: rest =>
    match decode (wordOfBytes hi lo) with
    | .ok i => .ok (i, rest)
    | .error e => .error e
  | _ => .error .truncated

/-- The two bytes of a word as memory holds them, the high byte at the lower address (30_encoding.md R90). -/
def bytesOfWord (w : Word) : List Byte := [w.extractLsb' 8 8, w.extractLsb' 0 8]

/-- The instruction that the decoder reads from the word `w` of the opcode table; the table's rows have one 16-bit word
each, and bits above `nbits` are zero. -/
def decodeTableWord (nbits w : Nat) : Option Instr :=
  match decodeBytes (bytesOfWord (BitVec.ofNat 16 (w % 2 ^ nbits))) with
  | .ok (i, _) => some i
  | .error _ => none

/-! The encoder, format by format (30_encoding.md Table R82, R90). -/

/-- The four bits of a register number. -/
def regBits (x : Reg) : BitVec 4 := BitVec.ofFin x

/-- NNN format: `op << 12 | nnn`. -/
def encodeNNN (op : BitVec 4) (nnn : BitVec 12) : Word := op ++ nnn

/-- XKK format, and X format with `kk` the function byte: `op << 12 | x << 8 | kk`. -/
def encodeXKK (op : BitVec 4) (x : Reg) (kk : Byte) : Word := op ++ regBits x ++ kk

/-- XY and XYN format: `op << 12 | x << 8 | y << 4 | n`. -/
def encodeXYN (op : BitVec 4) (x y : Reg) (n : BitVec 4) : Word := op ++ regBits x ++ regBits y ++ n

/-- The word of an instruction (30_encoding.md R90). -/
def encode : Instr → Word
  | .cls => 0x00E0#16
  | .ret => 0x00EE#16
  | .jp nnn => encodeNNN 0x1 nnn
  | .call nnn => encodeNNN 0x2 nnn
  | .seImm x kk => encodeXKK 0x3 x kk
  | .sneImm x kk => encodeXKK 0x4 x kk
  | .seReg x y => encodeXYN 0x5 x y 0x0
  | .ldImm x kk => encodeXKK 0x6 x kk
  | .addImm x kk => encodeXKK 0x7 x kk
  | .ldReg x y => encodeXYN 0x8 x y 0x0
  | .orReg x y => encodeXYN 0x8 x y 0x1
  | .andReg x y => encodeXYN 0x8 x y 0x2
  | .xorReg x y => encodeXYN 0x8 x y 0x3
  | .addReg x y => encodeXYN 0x8 x y 0x4
  | .subReg x y => encodeXYN 0x8 x y 0x5
  | .shr x y => encodeXYN 0x8 x y 0x6
  | .subnReg x y => encodeXYN 0x8 x y 0x7
  | .shl x y => encodeXYN 0x8 x y 0xE
  | .sneReg x y => encodeXYN 0x9 x y 0x0
  | .ldI nnn => encodeNNN 0xA nnn
  | .jpV0 nnn => encodeNNN 0xB nnn
  | .rnd x kk => encodeXKK 0xC x kk
  | .drw x y n => encodeXYN 0xD x y (BitVec.ofNat 4 n)
  | .skp x => encodeXKK 0xE x 0x9E
  | .sknp x => encodeXKK 0xE x 0xA1
  | .ldVxDt x => encodeXKK 0xF x 0x07
  | .ldVxKey x => encodeXKK 0xF x 0x0A
  | .ldDtVx x => encodeXKK 0xF x 0x15
  | .ldStVx x => encodeXKK 0xF x 0x18
  | .addI x => encodeXKK 0xF x 0x1E
  | .ldFont x => encodeXKK 0xF x 0x29
  | .ldBcd x => encodeXKK 0xF x 0x33
  | .storeRegs x => encodeXKK 0xF x 0x55
  | .loadRegs x => encodeXKK 0xF x 0x65

/-! The opcode table itself (30_encoding.md Table R84): what a word matches. -/

/-- One row of Table R84: the word `w` is this instruction exactly when `w &&& mask = bits`. -/
structure OpcodeRow where
  bits : Word
  mask : Word
  deriving DecidableEq, Repr

/-- The `match` and `mask` columns of Table R84, in its order. -/
def opcodeRows : List OpcodeRow :=
  [⟨0x00E0, 0xFFFF⟩, ⟨0x00EE, 0xFFFF⟩, ⟨0x1000, 0xF000⟩, ⟨0x2000, 0xF000⟩, ⟨0x3000, 0xF000⟩, ⟨0x4000, 0xF000⟩]
  ++ [⟨0x5000, 0xF00F⟩, ⟨0x6000, 0xF000⟩, ⟨0x7000, 0xF000⟩]
  ++ [⟨0x8000, 0xF00F⟩, ⟨0x8001, 0xF00F⟩, ⟨0x8002, 0xF00F⟩, ⟨0x8003, 0xF00F⟩, ⟨0x8004, 0xF00F⟩, ⟨0x8005, 0xF00F⟩]
  ++ [⟨0x8006, 0xF00F⟩, ⟨0x8007, 0xF00F⟩, ⟨0x800E, 0xF00F⟩, ⟨0x9000, 0xF00F⟩, ⟨0xA000, 0xF000⟩, ⟨0xB000, 0xF000⟩]
  ++ [⟨0xC000, 0xF000⟩, ⟨0xD000, 0xF000⟩, ⟨0xE09E, 0xF0FF⟩, ⟨0xE0A1, 0xF0FF⟩, ⟨0xF007, 0xF0FF⟩, ⟨0xF00A, 0xF0FF⟩]
  ++ [⟨0xF015, 0xF0FF⟩, ⟨0xF018, 0xF0FF⟩, ⟨0xF01E, 0xF0FF⟩, ⟨0xF029, 0xF0FF⟩, ⟨0xF033, 0xF0FF⟩, ⟨0xF055, 0xF0FF⟩]
  ++ [⟨0xF065, 0xF0FF⟩]

end Sys2Proof
end

