-- ==== Sys2Proof/Config.lean ====
section
/-! DEFINITION. The implementation parameters of CORE (00_scope.md Table R7): the fixed sizes, the record of the two
OPEN parameters `FONT` and `DIRTY_AT_RESET`, and the free values, which have no body. -/

namespace Sys2Proof

/-- `MEM_SIZE`: bytes of memory (00_scope.md R7). -/
abbrev memSize : Nat := 4096

/-- `FONT_BASE`: the address of glyph 0 (00_scope.md R7, 20_memory.md R51). -/
abbrev fontBase : Nat := 0

/-- The bytes of the font table: 16 glyphs of 5 bytes (00_scope.md R7). -/
abbrev fontSize : Nat := 80

/-- `PROG_BASE`: the first ROM byte and the pc at reset (00_scope.md R7). -/
abbrev progBase : Nat := 512

/-- `ROM_MAX`: the largest ROM in bytes (00_scope.md R7). -/
abbrev romMax : Nat := 3584

/-- `STACK_DEPTH` (00_scope.md R7). -/
abbrev stackDepth : Nat := 16

/-- The OPEN parameters that are fixed for one machine. A state carries its record, and no step writes it, so a
statement about every state holds for every value of them (92_eei_decisions.md, OPEN parameters; logs 1 and 2). -/
structure Config where
  /-- `FONT[0..79]` (20_memory.md R53). -/
  font : Vector Byte 80
  /-- `DIRTY_AT_RESET` (10_state.md R30). -/
  dirtyAtReset : Bool
  deriving DecidableEq, Repr

/-- What a byte of memory reads as when nothing has been written to it since RESET: the font at 0x000 to
0x04F (`fontBase` is 0), zero elsewhere (10_state.md R31, Table R36). -/
def Config.resetByte (cfg : Config) (a : Nat) : Byte :=
  if h : a < fontSize then cfg.font[a] else 0

/-- A free value: `DIRTY_AT_RESET` of the machine that `State.reset` stands for. DESIGN CHOICE, safe (log 2): the spec
leaves it open and nothing in Lean can evaluate it. -/
opaque Config.chipDirtyAtReset : Bool

/-- A free value: the random byte of the `k`-th `Cxkk` for which the host has supplied no byte (10_state.md R34: a free
draw under no law). DESIGN CHOICE, safe (log 3). -/
opaque Config.freeRnd (k : Nat) : Byte

end Sys2Proof
end

