-- ==== Sys2Proof/Machine/Font.lean ====
section
/-! DEFINITION. The default font table (20_memory.md Table R53) and the configuration `State.reset` stands for.
PRESUMED, unsafe (log 1): the spec marks the 80 bytes as general knowledge, not as the document's. -/

namespace Sys2Proof.Machine

/-- Glyphs 0 to 3, top row first (20_memory.md Table R53). -/
def glyphs0to3 : Vector Byte 20 :=
  #v[0xF0, 0x90, 0x90, 0x90, 0xF0, 0x20, 0x60, 0x20, 0x20, 0x70,
     0xF0, 0x10, 0xF0, 0x80, 0xF0, 0xF0, 0x10, 0xF0, 0x10, 0xF0]

/-- Glyphs 4 to 7 (20_memory.md Table R53). -/
def glyphs4to7 : Vector Byte 20 :=
  #v[0x90, 0x90, 0xF0, 0x10, 0x10, 0xF0, 0x80, 0xF0, 0x10, 0xF0,
     0xF0, 0x80, 0xF0, 0x90, 0xF0, 0xF0, 0x10, 0x20, 0x40, 0x40]

/-- Glyphs 8 to B (20_memory.md Table R53). -/
def glyphs8toB : Vector Byte 20 :=
  #v[0xF0, 0x90, 0xF0, 0x90, 0xF0, 0xF0, 0x90, 0xF0, 0x10, 0xF0,
     0xF0, 0x90, 0xF0, 0x90, 0x90, 0xE0, 0x90, 0xE0, 0x90, 0xE0]

/-- Glyphs C to F (20_memory.md Table R53). -/
def glyphsCtoF : Vector Byte 20 :=
  #v[0xF0, 0x80, 0x80, 0x80, 0xF0, 0xE0, 0x90, 0x90, 0x90, 0xE0,
     0xF0, 0x80, 0xF0, 0x80, 0xF0, 0xF0, 0x80, 0xF0, 0x80, 0x80]

/-- The default `FONT` (20_memory.md Table R53). PRESUMED, unsafe (log 1). -/
def defaultFont : Vector Byte 80 := glyphs0to3 ++ glyphs4to7 ++ glyphs8toB ++ glyphsCtoF

/-- The configuration of the machine that `State.reset` stands for: the default font and a free `DIRTY_AT_RESET`
(logs 1 and 2). -/
def chipConfig : Config := { font := defaultFont, dirtyAtReset := Config.chipDirtyAtReset }

end Sys2Proof.Machine
end

