-- ==== Sys2Proof/Machine/State.lean ====
section
/-! DEFINITION. The state of CORE (10_state.md Table R20) as plain data, with the model's own fields for the host's
inputs; the reasons a step can stop; and the state after RESET (10_state.md Table R36). -/

namespace Sys2Proof.Machine

/-- Memory: the cells that differ from what RESET left there, in strictly rising address order (20_memory.md R50; an
address that is not listed reads as `Config.resetByte`). -/
abbrev Memory := List Host.Cell

/-- The display: 32 rows of 64 cells, row 0 first, column 0 first (10_state.md R29, row-major). -/
abbrev Display := Vector (Vector Bool 64) 32

/-- The six commands of the host (40_step_cycle.md Table R100) with their inputs. -/
inductive Command where
  /-- RESET (70_reset_and_hazards.md R260). -/
  | reset
  /-- LOAD of a ROM image (70_reset_and_hazards.md R262). -/
  | load (rom : List Byte)
  /-- SET_KEYS (40_step_cycle.md R108). -/
  | setKeys (k : Vector Bool 16)
  /-- STEP with its input `rnd` (40_step_cycle.md R101, 10_state.md R34). -/
  | step (rnd : Byte)
  /-- DECAY (60_exceptions.md R232). -/
  | decay
  /-- ACK_DIRTY (40_step_cycle.md R108). -/
  | ackDirty
  deriving DecidableEq, Repr

/-- The state. The first eleven fields are the whole state of CORE (10_state.md R20); the last five are the model's own
and stand for the configuration and for what the host has put in front of CORE (logs 1 to 5). -/
structure State where
  /-- `mem[0..4095]`, 8 bits each (10_state.md R31). -/
  mem : Memory
  /-- V0 to VF, 8 bits each (10_state.md R21). -/
  v : Vector Byte 16
  /-- The index register I, 16 bits (10_state.md R23). -/
  i : Word
  /-- The program counter, 16 bits (10_state.md R24). -/
  pc : Word
  /-- `stack[0..15]`, 16 bits each (10_state.md R26). -/
  stack : Vector Word 16
  /-- The number of live stack entries, 0 to 16 (10_state.md R26, R32: 17 to 31 never occur). -/
  sp : Fin 17
  /-- The delay timer, 8 bits (10_state.md R27). -/
  dt : Byte
  /-- The sound timer, 8 bits (10_state.md R27). -/
  st : Byte
  /-- The key snapshot (10_state.md R28). -/
  keys : Vector Bool 16
  /-- The display, 64 by 32 cells (10_state.md R29). -/
  disp : Display
  /-- The dirty flag (10_state.md R30). -/
  dirty : Bool
  /-- The OPEN parameters of the machine (00_scope.md R7); never written. DESIGN CHOICE (logs 1 and 2). -/
  cfg : Config
  /-- The bytes the host has supplied for `rnd`, the next one first (10_state.md R34). DESIGN CHOICE (log 3). -/
  rndIn : List Byte
  /-- How many free bytes have been drawn. DESIGN CHOICE (log 3). -/
  draws : Nat
  /-- The host's commands that wait, the next one first (40_step_cycle.md R100). DESIGN CHOICE (log 4). -/
  pending : List Command
  /-- Whether LOAD has a meaning now (70_reset_and_hazards.md R262). DESIGN CHOICE (log 5). -/
  loadOpen : Bool
  deriving DecidableEq, Repr

/-- The faults of 60_exceptions.md Table R220, each with the information of the table's fifth column, all from the
state before the command (R227). A fault changes no state element (40_step_cycle.md R103). -/
inductive Fault where
  /-- STEP at decode: the word matches no instruction (60_exceptions.md R221). The spec's own fault, safe. -/
  | unsupportedOpcode (pc w : Word)
  /-- `2nnn` with 16 entries in use (60_exceptions.md R222). The spec's own fault, safe. -/
  | stackOverflow (pc : Word)
  /-- `00EE` with no entry in use (60_exceptions.md R223). The spec's own fault, safe. -/
  | stackUnderflow (pc : Word)
  /-- The fetch, `Dxyn`, `Fx33`, `Fx55`, `Fx65` with an address of 4096 or more; `addr` is the lowest such address
  (60_exceptions.md R224). The spec's own fault, safe. -/
  | memoryOutOfBounds (pc : Word) (addr : Nat)
  /-- LOAD of a ROM longer than 3584 bytes (60_exceptions.md R226). The spec's own fault, safe. -/
  | romTooLarge (len : Nat)
  /-- `Ex9E` and `ExA1` with `Vx` above 15 (60_exceptions.md R225, log 12). The spec's own fault, safe. -/
  | keyIndexOutOfRange (pc : Word) (vx : Byte)
  deriving DecidableEq, Repr

/-- Why the model gives no meaning. -/
inductive Refusal where
  /-- An instruction that has no meaning yet; raised by an arm of `exec` and by nothing else. Safe. -/
  | notModelled (mnemonic : String)
  /-- LOAD after a STEP or after a successful LOAD with no RESET since: the spec gives it no meaning and says that a
  model refuses it (70_reset_and_hazards.md R262, log 5). Raised by the command LOAD. Safe. -/
  | loadWithoutReset
  deriving DecidableEq, Repr

/-- The state after RESET of a machine with the parameters `cfg` (10_state.md Table R36, 70_reset_and_hazards.md R260):
nothing is listed in memory, so every cell reads as `cfg.resetByte`. -/
def State.resetWith (cfg : Config) : State :=
  { mem := [], v := Vector.replicate 16 0, i := 0, pc := 0x200
    stack := Vector.replicate 16 0, sp := 0, dt := 0, st := 0
    keys := Vector.replicate 16 false, disp := Vector.replicate 32 (Vector.replicate 64 false)
    dirty := cfg.dirtyAtReset, cfg := cfg, rndIn := [], draws := 0, pending := [], loadOpen := true }

/-- The machine right after reset (10_state.md Table R36), with the default font and a free `DIRTY_AT_RESET`. -/
def State.reset : State := State.resetWith chipConfig

end Sys2Proof.Machine
end

