-- ==== Sys2Proof/Machine/Ops.lean ====
section
/-! DEFINITION. The named operations over memory, registers, the program counter and the call stack, and the raising of
a fault, from which the meanings are made. -/

namespace Sys2Proof.Machine

/-- What a meaning answers. -/
abbrev Result := Host.Outcome State Fault Refusal

/-! ## Faults -/

/-- Taking a fault (60_exceptions.md R228): nothing is saved, nothing changes and control goes nowhere inside CORE; the
command ends with the fault as its result, the state being the one before the command (40_step_cycle.md R103), which
`transact` hands back. There is no return from a fault (60_exceptions.md R229, R241). -/
def raise (f : Fault) : Result := .fault f

/-! ## Memory -/

/-- The byte at address `a`: the listed cell, else what RESET left there. -/
def Memory.read (cfg : Config) : Memory → Nat → Byte
  | [], a => cfg.resetByte a
  | (k, w) :: rest, a => if a = k then w else Memory.read cfg rest a

/-- The memory with `b` at address `a`, in the canonical form: a byte equal to what RESET left there is not listed. -/
def Memory.write (cfg : Config) : Memory → Nat → Byte → Memory
  | [], a, b => if b = cfg.resetByte a then [] else [(a, b)]
  | (k, w) :: rest, a, b =>
    if a < k then (if b = cfg.resetByte a then (k, w) :: rest else (a, b) :: (k, w) :: rest)
    else if a = k then (if b = cfg.resetByte a then rest else (a, b) :: rest)
    else (k, w) :: Memory.write cfg rest a b

/-- The canonical form: addresses below 4096, strictly rising, and no cell equal to what RESET left there. -/
abbrev Memory.wf (cfg : Config) (m : Memory) : Prop :=
  m.Pairwise (fun p q => p.1 < q.1) ∧ ∀ c ∈ m, c.1 < memSize ∧ c.2 ≠ cfg.resetByte c.1

/-- `MemRead(a, 1)` after the bounds check (00_scope.md R9). -/
def State.readByte (s : State) (a : Nat) : Byte := Memory.read s.cfg s.mem a

/-- `MemWrite(a, 1, b)` after the bounds check (00_scope.md R9). -/
def State.writeByte (s : State) (a : Nat) (b : Byte) : State := { s with mem := Memory.write s.cfg s.mem a b }

/-- The `count` bytes at `base`, `base + 1`, ... (20_memory.md R54). -/
def State.readBytes (s : State) (base count : Nat) : List Byte :=
  (List.range count).map fun k => s.readByte (base + k)

/-- Stores a run of bytes at `base`, `base + 1`, ... (20_memory.md R54). -/
def State.writeBytes (s : State) (base : Nat) : List Byte → State
  | [] => s
  | b :: bs => (s.writeByte base b).writeBytes (base + 1) bs

/-- The bounds check of an access of `count` bytes at `base` (20_memory.md R55): the lowest address of the access that
is 4096 or more, if there is one. No address is reduced, and an access of no byte passes. -/
def firstOutside (base count : Nat) : Option Nat :=
  if count = 0 then none
  else if base + count - 1 ≥ memSize then some (max base memSize)
  else none

/-- An instruction's access of `count` bytes at `I`, checked before the instruction writes anything (20_memory.md R55):
`MemoryOutOfBounds` with the lowest offending address, or else `r`. -/
def State.withAccess (s : State) (count : Nat) (r : Result) : Result :=
  match firstOutside s.i.toNat count with
  | some a => raise (.memoryOutOfBounds s.pc a)
  | none => r

/-! ## Registers -/

/-- General register `x` (10_state.md R21). -/
def State.readV (s : State) (x : Reg) : Byte := s.v[x]

/-- Writes general register `x` (10_state.md R21). -/
def State.writeV (s : State) (x : Reg) (b : Byte) : State := { s with v := s.v.set x b }

/-- Writes the index register (10_state.md R23). -/
def State.setI (s : State) (w : Word) : State := { s with i := w }

/-- Writes the delay timer (10_state.md R27). -/
def State.setDt (s : State) (b : Byte) : State := { s with dt := b }

/-- Writes the sound timer (10_state.md R27). -/
def State.setSt (s : State) (b : Byte) : State := { s with st := b }

/-- Writes the display and marks it dirty (10_state.md R30). -/
def State.setDisp (s : State) (d : Display) : State := { s with disp := d, dirty := true }

/-! ## The program counter -/

/-- `pc <- t` (40_step_cycle.md R105). -/
def State.setPc (s : State) (t : Word) : State := { s with pc := t }

/-- `next`: `pc <- pc + 2` (40_step_cycle.md R105). -/
def State.advance (s : State) : State := s.setPc (s.pc + 2)

/-- `skip`: `pc <- pc + 4`, whatever the skipped word is (40_step_cycle.md R105). -/
def State.skip (s : State) : State := s.setPc (s.pc + 4)

/-- `skip` if the condition holds, else `next` (41_flow.md R123). -/
def State.skipIf (s : State) (c : Bool) : State := if c then s.skip else s.advance

/-! ## The call stack -/

/-- Push: `stack[sp] <- w; sp <- sp + 1`, or nothing if 16 entries are in use (10_state.md R26). -/
def State.push (s : State) (w : Word) : Option State :=
  if h : s.sp.val < 16 then
    some { s with stack := s.stack.set s.sp.val w, sp := ⟨s.sp.val + 1, by omega⟩ }
  else none

/-- Pop: `sp <- sp - 1`, answering `stack[sp]`, or nothing if no entry is in use; the popped entry keeps its bits
(10_state.md R26). -/
def State.pop (s : State) : Option (Word × State) :=
  if h : 0 < s.sp.val then
    some (s.stack[s.sp.val - 1], { s with sp := ⟨s.sp.val - 1, by omega⟩ })
  else none

/-! ## The random byte -/

/-- The byte on the input `rnd` of a STEP that executes `Cxkk`, and the state after it is consumed (10_state.md R34): the
next byte the host has supplied; where it has supplied none, a free byte, a fresh one each time (log 3). -/
def State.drawRnd (s : State) : Byte × State :=
  match s.rndIn with
  | b :: rest => (b, { s with rndIn := rest })
  | [] => (Config.freeRnd s.draws, { s with draws := s.draws + 1 })

end Sys2Proof.Machine
end

