-- ==== Sys2Proof/Machine/Flags.lean ====
section
/-! DEFINITION. The values of the flag VF (10_state.md R22): each is the byte 0 or 1, computed from the operands as they
were before the instruction (40_step_cycle.md R106). -/

namespace Sys2Proof.Machine

/-- A flag as the byte that VF receives. -/
def flagByte (b : Bool) : Byte := if b then 1 else 0

/-- `8xy4`: 1 if the unmasked sum exceeds 255 (42_alu.md R146). -/
def carryFlag (a b : Byte) : Byte := flagByte (decide (a.toNat + b.toNat > 255))

/-- `8xy5`, `8xy7`: 1 if `a` is strictly greater than `b`, unsigned (42_alu.md R147, R149). -/
def greaterFlag (a b : Byte) : Byte := flagByte (decide (a.toNat > b.toNat))

/-- `8xy6`: the bit shifted out, bit 0 (42_alu.md R148). -/
def bit0Flag (a : Byte) : Byte := a &&& 1

/-- `8xyE`: the bit shifted out, bit 7 (42_alu.md R150). -/
def bit7Flag (a : Byte) : Byte := flagByte (decide (a &&& 0x80 ≠ 0))

/-- `Dxyn`: 1 if any cell went from 1 to 0 (44_display.md R191). -/
def collisionFlag (c : Bool) : Byte := flagByte c

end Sys2Proof.Machine
end

