-- ==== Sys2Proof/Machine/Operands.lean ====
section
/-! DEFINITION. The operand forms: immediates, the effective addresses, the key number and the pressed key. -/

namespace Sys2Proof.Machine

/-- `zext_16(nnn)` (30_encoding.md R83). -/
def zextNNN (nnn : BitVec 12) : Word := nnn.setWidth 16

/-- A byte widened with zero bits to 16 (00_scope.md R9). -/
def zextByte (b : Byte) : Word := b.setWidth 16

/-- The effective address `I + k`, an unbounded natural (43_index_memory.md R176, 20_memory.md R57). -/
def State.addrI (s : State) (k : Nat) : Nat := s.i.toNat + k

/-- V0 to Vx, in order (43_index_memory.md R174). -/
def State.regsTo (s : State) (x : Reg) : List Byte := s.v.toList.take (x.val + 1)

/-- The registers after `V[k] <- MemRead(I + k)` for `k` = 0 to `x` (43_index_memory.md R175). -/
def State.loadRegsFrom (s : State) (x : Reg) : Vector Byte 16 :=
  Vector.ofFn fun k : Fin 16 => if k.val ≤ x.val then s.readByte (s.addrI k.val) else s.v[k]

/-- The number of a key, if the byte is one: 0 to 15 (45_keypad_timers.md R200). -/
def keyNumber (a : Byte) : Option (Fin 16) :=
  if h : a.toNat < 16 then some ⟨a.toNat, h⟩ else none

/-- The least number of a pressed key (45_keypad_timers.md R202). -/
def lowestKey (keys : Vector Bool 16) : Option (Fin 16) :=
  (List.finRange 16).find? fun k => keys[k]

end Sys2Proof.Machine
end

