-- ==== Sys2Proof/Machine/Alu.lean ====
section
/-! DEFINITION. The register load, ALU and random instructions (42_alu.md). Operands are latched, and the two writes of
a flag-writing instruction land in the order its rule lists them (40_step_cycle.md R106, log 10). -/

namespace Sys2Proof.Machine

/-- The sum reduced mod 256 (42_alu.md R152). -/
def sum8 (a b : Byte) : Byte := BitVec.ofNat 8 (a.toNat + b.toNat)

/-- The difference reduced mod 256 by adding 256 (42_alu.md R152). -/
def diff8 (a b : Byte) : Byte := BitVec.ofNat 8 (a.toNat + 256 - b.toNat)

/-- An instruction that only writes a result to `V[x]`, then `next`. -/
def State.result (s : State) (x : Reg) (r : Byte) : State := (s.writeV x r).advance

/-- Result, then flag (the flag is written last: `8xy4`), then `next`. -/
def State.resultThenFlag (s : State) (x : Reg) (r f : Byte) : State := ((s.writeV x r).writeV vf f).advance

/-- Flag, then result (the result is written last: `8xy5`, `8xy6`, `8xy7`, `8xyE`), then `next`. -/
def State.flagThenResult (s : State) (x : Reg) (r f : Byte) : State := ((s.writeV vf f).writeV x r).advance

/-- `6xkk` LD (42_alu.md R140). -/
def execLdImm (x : Reg) (kk : Byte) (s : State) : Result := .next (s.result x kk)

/-- `7xkk` ADD, no flag (42_alu.md R141). -/
def execAddImm (x : Reg) (kk : Byte) (s : State) : Result := .next (s.result x (sum8 (s.readV x) kk))

/-- `8xy0` LD (42_alu.md R142). -/
def execLdReg (x y : Reg) (s : State) : Result := .next (s.result x (s.readV y))

/-- `8xy1` OR, no flag (42_alu.md R143). -/
def execOrReg (x y : Reg) (s : State) : Result := .next (s.result x (s.readV x ||| s.readV y))

/-- `8xy2` AND, no flag (42_alu.md R144). -/
def execAndReg (x y : Reg) (s : State) : Result := .next (s.result x (s.readV x &&& s.readV y))

/-- `8xy3` XOR, no flag (42_alu.md R145). -/
def execXorReg (x y : Reg) (s : State) : Result := .next (s.result x (s.readV x ^^^ s.readV y))

/-- `8xy4` ADD: VF is the carry, written last (42_alu.md R146). -/
def execAddReg (x y : Reg) (s : State) : Result :=
  .next (s.resultThenFlag x (sum8 (s.readV x) (s.readV y)) (carryFlag (s.readV x) (s.readV y)))

/-- `8xy5` SUB: VF is `Vx > Vy`, the result written last (42_alu.md R147). -/
def execSubReg (x y : Reg) (s : State) : Result :=
  .next (s.flagThenResult x (diff8 (s.readV x) (s.readV y)) (greaterFlag (s.readV x) (s.readV y)))

/-- `8xy6` SHR: in place, `y` ignored, VF the old bit 0, the result written last (42_alu.md R148). -/
def execShr (x _y : Reg) (s : State) : Result :=
  .next (s.flagThenResult x (s.readV x >>> 1) (bit0Flag (s.readV x)))

/-- `8xy7` SUBN: VF is `Vy > Vx`, the result written last (42_alu.md R149). -/
def execSubnReg (x y : Reg) (s : State) : Result :=
  .next (s.flagThenResult x (diff8 (s.readV y) (s.readV x)) (greaterFlag (s.readV y) (s.readV x)))

/-- `8xyE` SHL: in place, `y` ignored, VF the old bit 7, the result written last (42_alu.md R150). -/
def execShl (x _y : Reg) (s : State) : Result :=
  .next (s.flagThenResult x (s.readV x <<< 1) (bit7Flag (s.readV x)))

/-- `Cxkk` RND: the byte on the input `rnd`, under the mask `kk` (42_alu.md R151, log 3). -/
def execRnd (x : Reg) (kk : Byte) (s : State) : Result := .next (s.drawRnd.2.result x (s.drawRnd.1 &&& kk))

end Sys2Proof.Machine
end

