-- ==== Sys2Proof/Machine/Display.lean ====
section
/-! DEFINITION. The display instructions and the sprite compositor (44_display.md). -/

namespace Sys2Proof.Machine

/-- The cell in column `x` and row `y` (10_state.md R29). -/
def Display.cell (d : Display) (x : Fin 64) (y : Fin 32) : Bool := d[y][x]

/-- The display with the cell in column `x` and row `y` toggled (44_display.md R191). -/
def Display.toggle (d : Display) (x : Fin 64) (y : Fin 32) : Display := d.set y (d[y].set x (!d[y][x]))

/-- The blank display (44_display.md R190). -/
def Display.blank : Display := Vector.replicate 32 (Vector.replicate 64 false)

/-- `(px + col) mod 64` (44_display.md R191). -/
def wrapX (px col : Nat) : Fin 64 := Fin.ofNat 64 (px + col)

/-- `(py + row) mod 32` (44_display.md R191). -/
def wrapY (py row : Nat) : Fin 32 := Fin.ofNat 32 (py + row)

/-- The pixel of column `col` of a sprite byte: bit 7 is the leftmost (44_display.md R191; the order is PRESUMED,
log 9). -/
def spriteBit (b : Byte) (col : Nat) : Bool := b.getLsbD (7 - col)

/-- One pixel: a set sprite bit toggles its cell, and collides if the cell was 1 (44_display.md R191). -/
def drawPixel (b : Byte) (px py row : Nat) (acc : Display × Bool) (col : Nat) : Display × Bool :=
  if spriteBit b col then
    (acc.1.toggle (wrapX px col) (wrapY py row), acc.2 || acc.1.cell (wrapX px col) (wrapY py row))
  else acc

/-- One sprite row: columns 0 to 7 (44_display.md R191). -/
def drawRow (b : Byte) (px py row : Nat) (acc : Display × Bool) : Display × Bool :=
  (List.range 8).foldl (drawPixel b px py row) acc

/-- The sprite's rows from number `row` on, over a display and the collisions so far (44_display.md R191). -/
def drawRows (px py : Nat) : List Byte → Nat → Display × Bool → Display × Bool
  | [], _, acc => acc
  | b :: bs, row, acc => drawRows px py bs (row + 1) (drawRow b px py row acc)

/-- The whole sprite: the display after it and whether any cell went from 1 to 0 (44_display.md R191). -/
def drawSprite (d : Display) (px py : Nat) (sprite : List Byte) : Display × Bool :=
  drawRows px py sprite 0 (d, false)

/-- `00E0` CLS (44_display.md R190). -/
def execCls (s : State) : Result := .next (s.setDisp Display.blank).advance

/-- The sprite that `Dxyn` reads: `n` bytes at I (44_display.md R191). -/
def State.sprite (s : State) (n : Nat) : List Byte := s.readBytes (s.addrI 0) n

/-- What `Dxyn` draws: the display and the collision (44_display.md R191). -/
def State.drawn (s : State) (x y : Reg) (n : Nat) : Display × Bool :=
  drawSprite s.disp (s.readV x).toNat (s.readV y).toNat (s.sprite n)

/-- `Dxyn` DRW (44_display.md R191). -/
def execDrw (x y : Reg) (n : Nat) (s : State) : Result :=
  s.withAccess n
    (.next (((s.setDisp (s.drawn x y n).1).writeV vf (collisionFlag (s.drawn x y n).2)).advance))

end Sys2Proof.Machine
end

