-- ==== Sys2Proof/Machine/Flow.lean ====
section
/-! DEFINITION. The control transfer instructions (41_flow.md). -/

namespace Sys2Proof.Machine

/-- `00EE` RET (41_flow.md R120). -/
def execRet (s : State) : Result :=
  match s.pop with
  | none => raise (.stackUnderflow s.pc)
  | some (t, s') => .next (s'.setPc t)

/-- `1nnn` JP (41_flow.md R121). -/
def execJp (nnn : BitVec 12) (s : State) : Result := .next (s.setPc (zextNNN nnn))

/-- `2nnn` CALL: it pushes the address of the instruction after the call (41_flow.md R122, log 16). -/
def execCall (nnn : BitVec 12) (s : State) : Result :=
  match s.push (s.pc + 2) with
  | none => raise (.stackOverflow s.pc)
  | some s' => .next (s'.setPc (zextNNN nnn))

/-- `3xkk` SE: skip if equal (41_flow.md R123; the polarity is PRESUMED, log 8). -/
def execSeImm (x : Reg) (kk : Byte) (s : State) : Result := .next (s.skipIf (decide (s.readV x = kk)))

/-- `4xkk` SNE: skip if different (41_flow.md R124; the polarity is PRESUMED, log 8). -/
def execSneImm (x : Reg) (kk : Byte) (s : State) : Result := .next (s.skipIf (decide (s.readV x ≠ kk)))

/-- `5xy0` SE: skip if equal (41_flow.md R125; the polarity is PRESUMED, log 8). -/
def execSeReg (x y : Reg) (s : State) : Result := .next (s.skipIf (decide (s.readV x = s.readV y)))

/-- `9xy0` SNE: skip if different (41_flow.md R126; the polarity is PRESUMED, log 8). -/
def execSneReg (x y : Reg) (s : State) : Result := .next (s.skipIf (decide (s.readV x ≠ s.readV y)))

/-- `Bnnn` JP V0: `nnn + V0`, no mask (41_flow.md R127, log 19). -/
def execJpV0 (nnn : BitVec 12) (s : State) : Result := .next (s.setPc (zextNNN nnn + zextByte (s.readV 0)))

end Sys2Proof.Machine
end

