-- ==== Sys2Proof/Machine/IndexMemory.lean ====
section
/-! DEFINITION. The index register and memory transfer instructions (43_index_memory.md). -/

namespace Sys2Proof.Machine

/-- `Annn` LD I (43_index_memory.md R170; the instruction is PRESUMED, log 7). -/
def execLdI (nnn : BitVec 12) (s : State) : Result := .next (s.setI (zextNNN nnn)).advance

/-- `Fx1E` ADD I: mod 65536, VF unchanged (43_index_memory.md R171). -/
def execAddI (x : Reg) (s : State) : Result :=
  .next (s.setI (BitVec.ofNat 16 (s.i.toNat + (s.readV x).toNat))).advance

/-- `Fx29` LD F: `FONT_BASE + 5 * Vx`, Vx whole (43_index_memory.md R172, log 19). -/
def execLdFont (x : Reg) (s : State) : Result :=
  .next (s.setI (BitVec.ofNat 16 (fontBase + 5 * (s.readV x).toNat))).advance

/-- The three decimal digits of a byte, hundreds first (43_index_memory.md R173). -/
def bcdDigits (a : Byte) : List Byte :=
  [BitVec.ofNat 8 (a.toNat / 100), BitVec.ofNat 8 (a.toNat / 10 % 10), BitVec.ofNat 8 (a.toNat % 10)]

/-- `Fx33` LD B: the digits of Vx at I, I + 1, I + 2; I unchanged (43_index_memory.md R173). -/
def execLdBcd (x : Reg) (s : State) : Result :=
  s.withAccess 3 (.next (s.writeBytes (s.addrI 0) (bcdDigits (s.readV x))).advance)

/-- `I <- I + x + 1` after a transfer (43_index_memory.md R176). -/
def State.bumpI (s : State) (x : Reg) : State := s.setI (BitVec.ofNat 16 (s.i.toNat + x.val + 1))

/-- `Fx55` LD [I], Vx: V0 to Vx stored at I to I + x, then `I <- I + x + 1` (43_index_memory.md R174). -/
def execStoreRegs (x : Reg) (s : State) : Result :=
  s.withAccess (x.val + 1) (.next ((s.writeBytes (s.addrI 0) (s.regsTo x)).bumpI x).advance)

/-- `Fx65` LD Vx, [I]: V0 to Vx loaded from I to I + x, then `I <- I + x + 1` (43_index_memory.md R175). -/
def execLoadRegs (x : Reg) (s : State) : Result :=
  s.withAccess (x.val + 1) (.next (({ s with v := s.loadRegsFrom x } : State).bumpI x).advance)

end Sys2Proof.Machine
end

