-- ==== Sys2Proof/Machine/KeypadTimers.lean ====
section
/-! DEFINITION. The keypad and timer instructions (45_keypad_timers.md). -/

namespace Sys2Proof.Machine

/-- The key test that `Ex9E` and `ExA1` share: `KeyIndexOutOfRange` if Vx is no key number, else skip if the key's level
is `level` (45_keypad_timers.md R200, R201, log 12). -/
def State.keySkip (s : State) (x : Reg) (level : Bool) : Result :=
  match keyNumber (s.readV x) with
  | none => raise (.keyIndexOutOfRange s.pc (s.readV x))
  | some k => .next (s.skipIf (s.keys[k] == level))

/-- `Ex9E` SKP: skip if the key is pressed (45_keypad_timers.md R200). -/
def execSkp (x : Reg) (s : State) : Result := s.keySkip x true

/-- `ExA1` SKNP: skip if the key is not pressed (45_keypad_timers.md R201). -/
def execSknp (x : Reg) (s : State) : Result := s.keySkip x false

/-- `Fx0A` LD Vx, K: the lowest pressed key, or no change at all while none is pressed (45_keypad_timers.md R202,
log 18). -/
def execLdVxKey (x : Reg) (s : State) : Result :=
  match lowestKey s.keys with
  | none => .next s
  | some k => .next (s.writeV x (BitVec.ofNat 8 k.val)).advance

/-- `Fx07` LD Vx, DT (45_keypad_timers.md R203). -/
def execLdVxDt (x : Reg) (s : State) : Result := .next (s.writeV x s.dt).advance

/-- `Fx15` LD DT, Vx (45_keypad_timers.md R204). -/
def execLdDtVx (x : Reg) (s : State) : Result := .next (s.setDt (s.readV x)).advance

/-- `Fx18` LD ST, Vx (45_keypad_timers.md R205). -/
def execLdStVx (x : Reg) (s : State) : Result := .next (s.setSt (s.readV x)).advance

end Sys2Proof.Machine
end

