-- ==== Sys2Proof/Machine/Cycle.lean ====
section
/-! DEFINITION. The STEP command's work (40_step_cycle.md R101): fetch, decode, execute. -/

namespace Sys2Proof.Machine

/-- The instruction fetch (40_step_cycle.md R101 steps 1 and 2): both bytes are checked, and the word is big-endian
(20_memory.md R54). -/
def State.fetch (s : State) : Except Fault Word :=
  match firstOutside s.pc.toNat 2 with
  | some a => .error (.memoryOutOfBounds s.pc a)
  | none => .ok (wordOfBytes (s.readByte s.pc.toNat) (s.readByte (s.pc.toNat + 1)))

/-- The state an instruction executes in: a STEP ends the time in which LOAD has a meaning (70_reset_and_hazards.md
R262, log 5). -/
def State.closeLoad (s : State) : State := { s with loadOpen := false }

/-- One instruction (40_step_cycle.md R101): the fetch's fault, the decoder's, or what the instruction does, in that
order (60_exceptions.md R233). -/
def stepInstr (s : State) : Result :=
  match s.fetch with
  | .error f => raise f
  | .ok w =>
    match decode w with
    | .error _ => raise (.unsupportedOpcode s.pc w)
    | .ok i => exec i s.closeLoad

/-- STEP with the byte `rnd` on its input (40_step_cycle.md R101): `Cxkk` consumes that byte, and every other
instruction ignores it, so afterwards the host's supply is as it was (10_state.md R34, log 3). -/
def stepWith (rnd : Byte) (s : State) : Result :=
  match stepInstr { s with rndIn := rnd :: s.rndIn } with
  | .next t => .next { t with rndIn := s.rndIn }
  | .fault f => .fault f
  | .refused r => .refused r

end Sys2Proof.Machine
end

