-- ==== Sys2Proof/Machine/Commands.lean ====
section
/-! DEFINITION. The host's six commands (40_step_cycle.md Table R100), their replies, and a command stream. -/

namespace Sys2Proof.Machine

/-- RESET (70_reset_and_hazards.md R260): every element of CORE to its reset value. The configuration is the machine's,
and the random source and the host's waiting commands are not CORE's state (R261, log 32). -/
def applyReset (s : State) : State :=
  { State.resetWith s.cfg with rndIn := s.rndIn, draws := s.draws, pending := s.pending }

/-- LOAD (70_reset_and_hazards.md R262): only after a RESET with no STEP and no successful LOAD since, else a refusal; a
ROM that is too long writes nothing. -/
def applyLoad (rom : List Byte) (s : State) : Result :=
  if s.loadOpen then
    if rom.length > romMax then raise (.romTooLarge rom.length)
    else .next (s.writeBytes progBase rom).closeLoad
  else .refused .loadWithoutReset

/-- SET_KEYS (40_step_cycle.md R108). -/
def applySetKeys (k : Vector Bool 16) (s : State) : State := { s with keys := k }

/-- A timer after DECAY: one less if it is positive (60_exceptions.md R232). -/
def decayed (t : Byte) : Byte := if 0 < t.toNat then t - 1 else t

/-- DECAY (60_exceptions.md R232). -/
def applyDecay (s : State) : State := { s with dt := decayed s.dt, st := decayed s.st }

/-- ACK_DIRTY (40_step_cycle.md R108). -/
def applyAckDirty (s : State) : State := { s with dirty := false }

/-- One command of the host (40_step_cycle.md Table R100). -/
def applyCommand (c : Command) (s : State) : Result :=
  match c with
  | .reset => .next (applyReset s)
  | .load rom => applyLoad rom s
  | .setKeys k => .next (applySetKeys k s)
  | .step rnd => stepWith rnd s
  | .decay => .next (applyDecay s)
  | .ackDirty => .next (applyAckDirty s)

/-! ## Replies -/

/-- What a command returns to the host (10_state.md R35, 60_exceptions.md R227). -/
inductive Reply where
  /-- A command other than STEP completed. -/
  | ok
  /-- STEP completed: `result` is OK, and the output `display_changed`. -/
  | stepOk (displayChanged : Bool)
  /-- The command ended with a fault; `display_changed` is 0. -/
  | fault (f : Fault)
  deriving DecidableEq, Repr

/-- The numeric code of a fault kind (60_exceptions.md Table R220). -/
def Fault.code : Fault → Nat
  | .unsupportedOpcode _ _ => 1
  | .stackOverflow _ => 2
  | .stackUnderflow _ => 3
  | .memoryOutOfBounds _ _ => 4
  | .romTooLarge _ => 5
  | .keyIndexOutOfRange _ _ => 6

/-- The numeric code of a reply (60_exceptions.md Table R220): 0 is OK. -/
def Reply.code : Reply → Nat
  | .ok => 0
  | .stepOk _ => 0
  | .fault f => f.code

/-- The instructions that mark the display dirty, and so the only ones whose completion gives `display_changed`
(40_step_cycle.md R102). -/
def marksDisplay : Instr → Bool
  | .cls | .drw _ _ _ => true
  | .ret | .jp _ | .call _ | .seImm _ _ | .sneImm _ _ | .seReg _ _ | .ldImm _ _ | .addImm _ _ | .ldReg _ _
  | .orReg _ _ | .andReg _ _ | .xorReg _ _ | .addReg _ _ | .subReg _ _ | .shr _ _ | .subnReg _ _ | .shl _ _
  | .sneReg _ _ | .ldI _ | .jpV0 _ | .rnd _ _ | .skp _ | .sknp _ | .ldVxDt _ | .ldVxKey _ | .ldDtVx _ | .ldStVx _
  | .addI _ | .ldFont _ | .ldBcd _ | .storeRegs _ | .loadRegs _ => false

/-- The output `display_changed` of a STEP that completes in `s` (40_step_cycle.md R101 step 6). -/
def State.displayChanged (s : State) : Bool :=
  match s.fetch with
  | .error _ => false
  | .ok w =>
    match decode w with
    | .error _ => false
    | .ok i => marksDisplay i

/-- The reply of a command that completes in `s`. -/
def okReply (c : Command) (s : State) : Reply :=
  match c with
  | .step _ => .stepOk s.displayChanged
  | .reset | .load _ | .setKeys _ | .decay | .ackDirty => .ok

/-- The state after a command that ended with a fault: no element of CORE changes (40_step_cycle.md R103); a STEP has
been made, so LOAD has no meaning any more (log 5). -/
def afterFault (c : Command) (s : State) : State :=
  match c with
  | .step _ => s.closeLoad
  | .reset | .load _ | .setKeys _ | .decay | .ackDirty => s

/-- A command as the function from (state, inputs) to (state, outputs) that 00_scope.md R12 asks for; a refusal where
the spec gives the command no meaning. -/
def transact (c : Command) (s : State) : Except Refusal (Reply × State) :=
  match applyCommand c s with
  | .next t => .ok (okReply c s, t)
  | .fault f => .ok (.fault f, afterFault c s)
  | .refused r => .error r

/-- A stream of commands, one after another, with their replies (40_step_cycle.md R100): a fault does not end it
(60_exceptions.md R229), a refusal does. -/
def serve : List Command → State → Except Refusal (List Reply × State)
  | [], s => .ok ([], s)
  | c :: cs, s =>
    match transact c s with
    | .error r => .error r
    | .ok (reply, t) =>
      match serve cs t with
      | .error r => .error r
      | .ok (replies, u) => .ok (reply :: replies, u)

/-! ## The pure outputs -/

/-- `beep`: the sound timer is active (60_exceptions.md R235). -/
def State.beep (s : State) : Bool := decide (0 < s.st.toNat)

/-- The display export: the cells in row-major order, and the dirty flag (44_display.md R193). -/
def State.displayOut (s : State) : List Bool × Bool := (s.disp.toList.flatMap fun row => row.toList, s.dirty)

end Sys2Proof.Machine
end

