-- ==== Sys2Proof/Machine/Step.lean ====
section
/-! DEFINITION. One step of the model: one command of the host's stream (40_step_cycle.md R100). -/

namespace Sys2Proof.Machine

/-- One command: the next one that waits in the host's queue; with none waiting, the host issues STEP (log 4). -/
def step (s : State) : Host.Outcome State Fault Refusal :=
  match s.pending with
  | [] => stepInstr s
  | c :: rest => applyCommand c { s with pending := rest }

/-- Where `withFetchWord` places a word: at the pc, or, where no word can be fetched from there, at 0x200. -/
def fetchPlace (pc : Word) : Word := if pc.toNat + 1 < memSize then pc else 0x200

/-- `s` with the word `w` where `step` fetches its next instruction, and nothing waiting before it, so that the next
step runs it (log 24). -/
def State.withFetchWord (s : State) (nbits w : Nat) : State :=
  { (s.writeBytes (fetchPlace s.pc).toNat (bytesOfWord (BitVec.ofNat 16 (w % 2 ^ nbits)))) with
    pc := fetchPlace s.pc, pending := [] }

end Sys2Proof.Machine
end

