-- ==== Sys2Proof/Safety.lean ====
section
/-! DEFINITION. The terms in which the statements speak: what a step leaves unchanged, the invariant of a run, and the
elements an instruction may write. -/

namespace Sys2Proof.Machine

/-- The fields of State, by name (10_state.md Table R20, then the model's own). -/
inductive Elem where
  | mem | v | i | pc | stack | sp | dt | st | keys | disp | dirty
  | cfg | rndIn | draws | pending | loadOpen
  deriving DecidableEq, Repr

/-- Element `e` has the same value in both states; memory is compared by the read of every byte. -/
def Elem.kept (s t : State) : Elem → Prop
  | .mem => ∀ a, t.readByte a = s.readByte a
  | .v => ∀ r, t.readV r = s.readV r
  | .i => t.i = s.i
  | .pc => t.pc = s.pc
  | .stack => t.stack = s.stack
  | .sp => t.sp = s.sp
  | .dt => t.dt = s.dt
  | .st => t.st = s.st
  | .keys => t.keys = s.keys
  | .disp => ∀ x y, t.disp.cell x y = s.disp.cell x y
  | .dirty => t.dirty = s.dirty
  | .cfg => t.cfg = s.cfg
  | .rndIn => t.rndIn = s.rndIn
  | .draws => t.draws = s.draws
  | .pending => t.pending = s.pending
  | .loadOpen => t.loadOpen = s.loadOpen

/-- Every element outside the list has the same value in both states: the frame. -/
def KeptBut (es : List Elem) (s t : State) : Prop := ∀ e, e ∉ es → e.kept s t

/-- Every general register outside the list has the same value in both states. -/
def RegsKeptBut (rs : List Reg) (s t : State) : Prop := ∀ r, r ∉ rs → t.readV r = s.readV r

/-- Every byte outside the `count` bytes at `base` has the same value in both states. -/
def MemKeptOutside (base count : Nat) (s t : State) : Prop :=
  ∀ a, a < base ∨ base + count ≤ a → t.readByte a = s.readByte a

/-- The invariant of a run: memory is in its canonical form, the pc is at most 0x10FE, and no live stack entry is above
0x1000 (10_state.md R25). -/
abbrev Inv (s : State) : Prop :=
  Memory.wf s.cfg s.mem ∧ s.pc.toNat ≤ 0x10FE ∧ ∀ k : Fin 16, k.val < s.sp.val → s.stack[k].toNat ≤ 0x1000

/-- The elements an instruction may write (the column "written by" of 10_state.md Table R20, rules R21 and R24); for
`Cxkk` also the model's supply of random bytes. -/
def writesOf : Instr → List Elem
  | .cls => [.disp, .dirty, .pc]
  | .ret => [.sp, .pc]
  | .jp _ => [.pc]
  | .call _ => [.stack, .sp, .pc]
  | .seImm _ _ | .sneImm _ _ | .seReg _ _ | .sneReg _ _ => [.pc]
  | .ldImm _ _ | .addImm _ _ | .ldReg _ _ | .orReg _ _ | .andReg _ _ | .xorReg _ _ => [.v, .pc]
  | .addReg _ _ | .subReg _ _ | .shr _ _ | .subnReg _ _ | .shl _ _ => [.v, .pc]
  | .ldI _ => [.i, .pc]
  | .jpV0 _ => [.pc]
  | .rnd _ _ => [.v, .pc, .rndIn, .draws]
  | .drw _ _ _ => [.v, .disp, .dirty, .pc]
  | .skp _ | .sknp _ => [.pc]
  | .ldVxDt _ | .ldVxKey _ => [.v, .pc]
  | .ldDtVx _ => [.dt, .pc]
  | .ldStVx _ => [.st, .pc]
  | .addI _ | .ldFont _ => [.i, .pc]
  | .ldBcd _ => [.mem, .pc]
  | .storeRegs _ => [.mem, .i, .pc]
  | .loadRegs _ => [.v, .i, .pc]

/-- The general registers an instruction may write (10_state.md R21, R22): its result registers, and VF for the six
flag-writing instructions. -/
def regsWrittenBy : Instr → List Reg
  | .ldImm x _ | .addImm x _ | .ldReg x _ | .orReg x _ | .andReg x _ | .xorReg x _ => [x]
  | .addReg x _ | .subReg x _ | .shr x _ | .subnReg x _ | .shl x _ => [x, vf]
  | .rnd x _ | .ldVxDt x | .ldVxKey x => [x]
  | .drw _ _ _ => [vf]
  | .loadRegs x => (List.finRange 16).filter fun r => r ≤ x
  | .cls | .ret | .jp _ | .call _ | .seImm _ _ | .sneImm _ _ | .seReg _ _ | .sneReg _ _ | .ldI _ | .jpV0 _
  | .skp _ | .sknp _ | .ldDtVx _ | .ldStVx _ | .addI _ | .ldFont _ | .ldBcd _ | .storeRegs _ => []

/-- The cell in column `cx` and row `cy` lies under a set bit of the sprite that `Dxyn` draws at (`px`, `py`)
(44_display.md R191). -/
def underSprite (sprite : List Byte) (px py : Nat) (cx : Fin 64) (cy : Fin 32) : Prop :=
  ∃ row col, ∃ h : row < sprite.length, col < 8 ∧ spriteBit sprite[row] col = true ∧
    cx.val = (px + col) % 64 ∧ cy.val = (py + row) % 32

end Sys2Proof.Machine
end

