-- ==== Sys2Proof/Certificates/Slice0/Obligations.lean ====
section
/-! DEFINITION. The statements about the model that the provers settle. The model's own fields (`cfg`, `rndIn`, `draws`,
`pending`, `loadOpen`; logs 1 to 5) appear in them only where a step touches them. -/

open Sys2Proof Sys2Proof.Machine

/-! ## Encoding -/

/-- 30_encoding.md, sections 3 and 7: the word of every well-formed instruction decodes to it, as a word and as the two
bytes memory holds. -/
def Obligations.EncodedInstructionDecodesToItself : Prop :=
  ∀ (i : Instr) (rest : List Byte), i.wf = true →
    decode (encode i) = .ok i ∧ decodeBytes (bytesOfWord (encode i) ++ rest) = .ok (i, rest)

/-- 30_encoding.md, sections 3 and 7: an instruction is decoded from its own word only, and is well-formed. -/
def Obligations.DecodedWordIsTheEncodingOfItsInstruction : Prop :=
  ∀ (w : Word) (i : Instr), decode w = .ok i → encode i = w ∧ i.wf = true

/-- 30_encoding.md Table R84: a word decodes exactly when it matches a row, no word matches two rows, and the words that
match none are the unsupported ones. The exact-match reading is the spec's decision D7 (log 17). -/
def Obligations.DecoderAcceptsExactlyTheTableRows : Prop :=
  (∀ w : Word, (∃ i, decode w = .ok i) ↔ ∃ r ∈ opcodeRows, w &&& r.mask = r.bits) ∧
  (∀ w : Word, (∀ r ∈ opcodeRows, w &&& r.mask ≠ r.bits) → decode w = .error (.unsupported w)) ∧
  opcodeRows.Pairwise fun r q => ∀ w : Word, w &&& r.mask = r.bits → w &&& q.mask ≠ q.bits

/-- 95_test_vectors.md C1 to C10: sample words decode as the spec's table says. A sanity statement. -/
def Obligations.SampleWordsDecodeAsTabulated : Prop :=
  decode 0x1234 = .ok (.jp 0x234) ∧ decode 0x3412 = .ok (.seImm 4 0x12) ∧ decode 0xD12F = .ok (.drw 1 2 15) ∧
  decode 0x8AB4 = .ok (.addReg 10 11) ∧ decode 0x8AB8 = .error (.unsupported 0x8AB8) ∧
  decode 0xFF65 = .ok (.loadRegs 15) ∧ decode 0xE09E = .ok (.skp 0) ∧ decode 0x00E0 = .ok .cls ∧
  decode 0x01E0 = .error (.unsupported 0x01E0) ∧ decode 0x5AB0 = .ok (.seReg 10 11)

/-! ## The step -/

/-- When no command of the host waits (the model's queue, log 4) and the two bytes at the pc decode to `i`, the step is
`exec i`; the only thing the step adds is that LOAD has no meaning any more (log 5). -/
def Obligations.StepRunsTheDecodedInstruction : Prop :=
  ∀ (s : State) (i : Instr), s.pending = [] → s.pc.toNat + 1 < memSize →
    decode (wordOfBytes (s.readByte s.pc.toNat) (s.readByte (s.pc.toNat + 1))) = .ok i →
    step s = exec i { s with loadOpen := false }

/-- When a command of the host waits, the step is that command and the command leaves the queue: the model's way to hold
the host's stream of commands, a DESIGN CHOICE (log 4). -/
def Obligations.StepServesTheWaitingCommandFirst : Prop :=
  ∀ (s : State) (c : Command) (rest : List Command), s.pending = c :: rest →
    step s = applyCommand c { s with pending := rest }

/-- 40_step_cycle.md, the STEP command, in the order fetch bound, decode, execution, with its result, `display_changed` and
the state it leaves; a completed instruction never changes the keys, clears `dirty` or moves a timer it does not load.
Four clauses are choices: the STEP's byte stands in front of the host's supply `rndIn` while the instruction runs and the
supply is put back after it (DESIGN CHOICE, log 3); `loadOpen` is false after a STEP, a faulted one among them (DESIGN
CHOICE, log 5); a fault leaves every element of CORE as it was (the spec's decision D15, log 11); `display_changed` is
given exactly by a completed CLS or DRW (its decision D29, log 31). -/
def Obligations.StepFollowsTheCycle : Prop :=
  ∀ (s : State) (r : Byte),
    (memSize ≤ s.pc.toNat + 1 →
      transact (.step r) s =
        .ok (.fault (.memoryOutOfBounds s.pc (max s.pc.toNat memSize)), { s with loadOpen := false })) ∧
    (s.pc.toNat + 1 < memSize →
      ∀ w, w = wordOfBytes (s.readByte s.pc.toNat) (s.readByte (s.pc.toNat + 1)) →
        (∀ e, decode w = .error e →
          transact (.step r) s = .ok (.fault (.unsupportedOpcode s.pc w), { s with loadOpen := false })) ∧
        (∀ i, decode w = .ok i →
          (∀ f, exec i { s with loadOpen := false, rndIn := r :: s.rndIn } = .fault f →
            transact (.step r) s = .ok (.fault f, { s with loadOpen := false })) ∧
          (∀ t, exec i { s with loadOpen := false, rndIn := r :: s.rndIn } = .next t →
            (∃ b, transact (.step r) s = .ok (.stepOk b, { t with rndIn := s.rndIn }) ∧
              (b = true ↔ i = .cls ∨ ∃ x y n, i = .drw x y n)) ∧
            t.keys = s.keys ∧ (s.dirty = true → t.dirty = true) ∧
            ((∀ x, i ≠ .ldDtVx x) → t.dt = s.dt) ∧ ((∀ x, i ≠ .ldStVx x) → t.st = s.st))))

/-- 40_step_cycle.md R102 (the meaning of `display_changed` is the spec's decision D29, log 31): a STEP with
`display_changed` leaves `dirty` set, and one without leaves the display and `dirty` as they were. -/
def Obligations.DisplayChangedMatchesDirty : Prop :=
  ∀ (s : State) (r : Byte) (b : Bool) (t : State), transact (.step r) s = .ok (.stepOk b, t) →
    (b = true → t.dirty = true) ∧ (b = false → t.dirty = s.dirty ∧ ∀ x y, t.disp.cell x y = s.disp.cell x y)

/-- 40_step_cycle.md R103 and 60_exceptions.md R229 (the spec's decisions D15 and D17, log 11): a command that faults
changes no element of CORE, and a STEP that faulted faults again in the same way, whatever its random byte. -/
def Obligations.FaultsChangeNothingAndRepeat : Prop :=
  (∀ (s t : State) (c : Command) (f : Fault), transact c s = .ok (.fault f, t) → KeptBut [.loadOpen] s t) ∧
  (∀ (s t : State) (r r' : Byte) (f : Fault), transact (.step r) s = .ok (.fault f, t) →
    transact (.step r') t = .ok (.fault f, t))

/-- 10_state.md Table R20, column "written by", and R21: an instruction that completes writes only the elements listed for
it (`writesOf`), and of the general registers only its result registers and, for the six flag writers, VF. -/
def Obligations.InstructionWritesOnlyItsElements : Prop :=
  ∀ (i : Instr) (s t : State), exec i s = .next t → KeptBut (writesOf i) s t ∧ RegsKeptBut (regsWrittenBy i) s t

/-- 40_step_cycle.md section 2 (R105): a completed instruction that is no jump, call or return leaves the pc at the next
word, or, if it is one of the six skips, one word further, or, if it is the key wait with no key pressed, where it was. -/
def Obligations.PcMovesByNextOrSkip : Prop :=
  ∀ (i : Instr) (s t : State), exec i s = .next t →
    i ≠ .ret → (∀ nnn, i ≠ .jp nnn ∧ i ≠ .call nnn ∧ i ≠ .jpV0 nnn) →
    t.pc = s.pc + 2 ∨
    (t.pc = s.pc + 4 ∧ ((∃ x kk, i = .seImm x kk ∨ i = .sneImm x kk) ∨ (∃ x y, i = .seReg x y ∨ i = .sneReg x y) ∨
      ∃ x, i = .skp x ∨ i = .sknp x)) ∨
    (t.pc = s.pc ∧ (∃ x, i = .ldVxKey x) ∧ ∀ k : Fin 16, s.keys[k] = false)

/-! ## The invariant -/

/-- 10_state.md R25 and the model's canonical memory: every step, of an instruction or of a host command, keeps memory
canonical, the pc at most 0x10FE and every live stack entry at most 0x1000. -/
def Obligations.StepKeepsTheInvariant : Prop :=
  ∀ s t : State, Inv s → step s = .next t → Inv t

/-- The state after RESET satisfies the invariant, whatever the OPEN parameters are, and so does the model's reset state. -/
def Obligations.ResetSatisfiesTheInvariant : Prop :=
  (∀ cfg : Config, Inv (State.resetWith cfg)) ∧ Inv State.reset

/-- 10_state.md sections 8 and 9 and 60_exceptions.md section 4: only SET_KEYS and RESET change the keys, only ACK_DIRTY
and RESET clear `dirty`, and nothing changes the machine's parameters (the queue is the model's, log 4). -/
def Obligations.OnlyTheHostChangesKeysAndClearsDirty : Prop :=
  ∀ s t : State, step s = .next t →
    t.cfg = s.cfg ∧
    (t.keys ≠ s.keys → ∃ rest, s.pending = .reset :: rest ∨ ∃ k, s.pending = .setKeys k :: rest ∧ t.keys = k) ∧
    (s.dirty = true → t.dirty = false → ∃ rest, s.pending = .reset :: rest ∨ s.pending = .ackDirty :: rest)

/-- 10_state.md section 12 (R33): the sound timer, the dirty flag and the dead stack entries cannot be observed by a
program: an instruction does the same in two states that differ in them only. -/
def Obligations.WriteOnlyStateIsNotObservable : Prop :=
  ∀ (i : Instr) (s s' : State) (a : Byte) (d : Bool) (k : Vector Word 16),
    s' = { s with st := a, dirty := d, stack := k } →
    (∀ j : Fin 16, j.val < s.sp.val → k[j] = s.stack[j]) →
    (∀ f, exec i s = .fault f → exec i s' = .fault f) ∧
    (∀ t, exec i s = .next t → ∃ t', exec i s' = .next t' ∧ KeptBut [.st, .dirty, .stack] t t' ∧
      ∀ j : Fin 16, j.val < t.sp.val → t'.stack[j] = t.stack[j])

/-! ## Faults -/

/-- 60_exceptions.md, the two stack faults: exactly which instructions raise them, when, and with what information (the pc,
Table R220 of that file, the spec's decision D16, log 13). That the state is unchanged after a StackUnderflow is the spec's
decision D15 (log 11); that `loadOpen` is false after a faulted STEP is the model's DESIGN CHOICE (log 5). -/
def Obligations.StackFaultsRaisedExactly : Prop :=
  ∀ (i : Instr) (s : State) (p : Word),
    (exec i s = .fault (.stackOverflow p) ↔ (∃ nnn, i = .call nnn) ∧ s.sp.val = 16 ∧ p = s.pc) ∧
    (exec i s = .fault (.stackUnderflow p) ↔ i = .ret ∧ s.sp.val = 0 ∧ p = s.pc) ∧
    ∀ (r : Byte) (t : State) (f : Fault), f = .stackOverflow p ∨ f = .stackUnderflow p →
      transact (.step r) s = .ok (.fault f, t) → t = { s with loadOpen := false }

/-- 60_exceptions.md R224: exactly when a STEP raises `MemoryOutOfBounds`, and with which address: at fetch, or in one of
the four instructions that access memory. -/
def Obligations.MemoryFaultsRaisedExactly : Prop :=
  ∀ (s : State) (p : Word) (a : Nat), s.pending = [] →
    (step s = .fault (.memoryOutOfBounds p a) ↔
      p = s.pc ∧
      ((memSize ≤ s.pc.toNat + 1 ∧ a = max s.pc.toNat memSize) ∨
       (s.pc.toNat + 1 < memSize ∧ a = max s.i.toNat memSize ∧
        ∃ i, decode (wordOfBytes (s.readByte s.pc.toNat) (s.readByte (s.pc.toNat + 1))) = .ok i ∧
          ((∃ x y n, i = .drw x y n ∧ 0 < n ∧ memSize ≤ s.i.toNat + n - 1) ∨
           (∃ x, i = .ldBcd x ∧ memSize ≤ s.i.toNat + 2) ∨
           (∃ x : Reg, (i = .storeRegs x ∨ i = .loadRegs x) ∧ memSize ≤ s.i.toNat + x.val)))))

/-- 60_exceptions.md R221: a step with no command waiting raises `UnsupportedOpcode` exactly when the word at the pc can be
fetched and matches no row of the opcode table, and records the pc and the word. Which words match is the spec's decision
D7 (log 17). -/
def Obligations.UnsupportedOpcodeRaisedExactly : Prop :=
  ∀ (s : State) (p w : Word), s.pending = [] →
    (step s = .fault (.unsupportedOpcode p w) ↔
      p = s.pc ∧ s.pc.toNat + 1 < memSize ∧ w = wordOfBytes (s.readByte s.pc.toNat) (s.readByte (s.pc.toNat + 1)) ∧
      ∀ r ∈ opcodeRows, w &&& r.mask ≠ r.bits)

/-- 60_exceptions.md R225, R226: exactly when `KeyIndexOutOfRange` (the spec's decision D13, log 12) and `RomTooLarge` (its
decision D21, logs 5 and 28) are raised, and with what information. -/
def Obligations.KeyAndRomFaultsRaisedExactly : Prop :=
  (∀ (i : Instr) (s : State) (p : Word) (b : Byte),
    exec i s = .fault (.keyIndexOutOfRange p b) ↔
      p = s.pc ∧ ∃ x, (i = .skp x ∨ i = .sknp x) ∧ 15 < (s.readV x).toNat ∧ b = s.readV x) ∧
  (∀ (c : Command) (s : State) (n : Nat),
    applyCommand c s = .fault (.romTooLarge n) ↔
      s.loadOpen = true ∧ ∃ rom, c = .load rom ∧ 3584 < rom.length ∧ n = rom.length)

/-- 60_exceptions.md sections 1 and 4: a STEP either completes or ends with one of the five step faults; it never ends
with the load-time fault, and no instruction is without a meaning. -/
def Obligations.StepCompletesOrFaults : Prop :=
  ∀ s : State, s.pending = [] →
    (∃ t, step s = .next t) ∨ ∃ f, step s = .fault f ∧ (f.code = 1 ∨ f.code = 2 ∨ f.code = 3 ∨ f.code = 4 ∨ f.code = 6)

/-! ## Control transfer -/

/-- 41_flow.md R120: RET pops the newest entry into the pc and advances no further; with no entry it faults. -/
def Obligations.ReturnPopsTheStack : Prop :=
  ∀ s : State,
    (s.sp.val = 0 → exec .ret s = .fault (.stackUnderflow s.pc)) ∧
    (0 < s.sp.val → ∃ t, exec .ret s = .next t ∧ t.sp.val = s.sp.val - 1 ∧ t.pc = s.stack[s.sp.val - 1] ∧
      KeptBut [.sp, .pc] s t)

/-- 41_flow.md R121: JP sets the pc and nothing else; a jump to itself leaves the state unchanged. -/
def Obligations.JumpSetsThePc : Prop :=
  ∀ (nnn : BitVec 12) (s : State), ∃ t, exec (.jp nnn) s = .next t ∧ t.pc.toNat = nnn.toNat ∧ KeptBut [.pc] s t ∧
    (nnn.toNat = s.pc.toNat → t = s)

/-- 41_flow.md, CALL: it pushes the address of the instruction after the call, which is the spec's decision D5 (log 16),
and jumps; with 16 entries in use it faults. -/
def Obligations.CallPushesTheReturnAddress : Prop :=
  ∀ (nnn : BitVec 12) (s : State),
    (s.sp.val = 16 → exec (.call nnn) s = .fault (.stackOverflow s.pc)) ∧
    (∀ h : s.sp.val < 16, ∃ t, exec (.call nnn) s = .next t ∧ t.pc.toNat = nnn.toNat ∧ t.sp.val = s.sp.val + 1 ∧
      t.stack[s.sp.val] = s.pc + 2 ∧ (∀ k : Fin 16, k.val ≠ s.sp.val → t.stack[k] = s.stack[k]) ∧
      KeptBut [.stack, .sp, .pc] s t)

/-- 95_test_vectors.md E7 (with the spec's decision D5, log 16): a return right after a call goes to the instruction
after the call, with the stack as deep as before and its live entries unchanged. -/
def Obligations.ReturnAfterCallGoesToTheNextInstruction : Prop :=
  ∀ (nnn : BitVec 12) (s t : State), exec (.call nnn) s = .next t →
    ∃ u, exec .ret t = .next u ∧ u.pc = s.pc + 2 ∧ u.sp = s.sp ∧
      (∀ k : Fin 16, k.val < s.sp.val → u.stack[k] = s.stack[k]) ∧ KeptBut [.stack, .pc] s u

/-- 41_flow.md, the four compare skips: `3xkk` and `5xy0` skip on equal, `4xkk` and `9xy0` on different; that polarity is
general knowledge by the spec's own word (D9, PRESUMED, log 8). Nothing but the pc changes. -/
def Obligations.CompareSkipsTestEquality : Prop :=
  ∀ (x y : Reg) (kk : Byte) (s : State),
    (∃ t, exec (.seImm x kk) s = .next t ∧ KeptBut [.pc] s t ∧
      t.pc = if (s.readV x).toNat = kk.toNat then s.pc + 4 else s.pc + 2) ∧
    (∃ t, exec (.sneImm x kk) s = .next t ∧ KeptBut [.pc] s t ∧
      t.pc = if (s.readV x).toNat = kk.toNat then s.pc + 2 else s.pc + 4) ∧
    (∃ t, exec (.seReg x y) s = .next t ∧ KeptBut [.pc] s t ∧
      t.pc = if (s.readV x).toNat = (s.readV y).toNat then s.pc + 4 else s.pc + 2) ∧
    (∃ t, exec (.sneReg x y) s = .next t ∧ KeptBut [.pc] s t ∧
      t.pc = if (s.readV x).toNat = (s.readV y).toNat then s.pc + 2 else s.pc + 4)

/-- 41_flow.md, JP V0: the pc is `nnn + V0`, with no mask, which is the spec's decision D23 (log 19). -/
def Obligations.JumpWithOffsetAddsV0 : Prop :=
  ∀ (nnn : BitVec 12) (s : State), ∃ t, exec (.jpV0 nnn) s = .next t ∧
    t.pc.toNat = nnn.toNat + (s.readV 0).toNat ∧ KeptBut [.pc] s t

/-! ## Register load, ALU, random -/

/-- 42_alu.md R140, R142: LD Vx, kk and LD Vx, Vy. -/
def Obligations.LoadsWriteTheirOperand : Prop :=
  ∀ (x y : Reg) (kk : Byte) (s : State),
    (∃ t, exec (.ldImm x kk) s = .next t ∧ t.readV x = kk ∧ RegsKeptBut [x] s t ∧ t.pc = s.pc + 2 ∧
      KeptBut [.v, .pc] s t) ∧
    (∃ t, exec (.ldReg x y) s = .next t ∧ t.readV x = s.readV y ∧ RegsKeptBut [x] s t ∧ t.pc = s.pc + 2 ∧
      KeptBut [.v, .pc] s t)

/-- 42_alu.md R141: ADD Vx, kk wraps mod 256 and sets no flag: VF, unless it is Vx itself, is untouched. -/
def Obligations.AddImmediateWrapsWithoutFlag : Prop :=
  ∀ (x : Reg) (kk : Byte) (s : State), ∃ t, exec (.addImm x kk) s = .next t ∧
    (t.readV x).toNat = ((s.readV x).toNat + kk.toNat) % 256 ∧ RegsKeptBut [x] s t ∧ t.pc = s.pc + 2 ∧
    KeptBut [.v, .pc] s t

/-- 42_alu.md R143, R144, R145: OR, AND and XOR, bit by bit; VF, unless it is Vx itself, is untouched. -/
def Obligations.LogicWorksBitByBit : Prop :=
  ∀ (x y : Reg) (s : State),
    (∃ t, exec (.orReg x y) s = .next t ∧
      (∀ k, (t.readV x).getLsbD k = ((s.readV x).getLsbD k || (s.readV y).getLsbD k)) ∧
      RegsKeptBut [x] s t ∧ t.pc = s.pc + 2 ∧ KeptBut [.v, .pc] s t) ∧
    (∃ t, exec (.andReg x y) s = .next t ∧
      (∀ k, (t.readV x).getLsbD k = ((s.readV x).getLsbD k && (s.readV y).getLsbD k)) ∧
      RegsKeptBut [x] s t ∧ t.pc = s.pc + 2 ∧ KeptBut [.v, .pc] s t) ∧
    (∃ t, exec (.xorReg x y) s = .next t ∧
      (∀ k, (t.readV x).getLsbD k = ((s.readV x).getLsbD k ^^ (s.readV y).getLsbD k)) ∧
      RegsKeptBut [x] s t ∧ t.pc = s.pc + 2 ∧ KeptBut [.v, .pc] s t)

/-- 42_alu.md, ADD Vx, Vy: the sum mod 256 and its carry; operands are latched, and with `x` = F the flag is written last
and the sum is lost, which is the spec's decision D6 (log 10). -/
def Obligations.AddRegistersSetsTheCarry : Prop :=
  ∀ (x y : Reg) (s : State), ∃ t, exec (.addReg x y) s = .next t ∧
    (x ≠ vf → (t.readV x).toNat = ((s.readV x).toNat + (s.readV y).toNat) % 256) ∧
    (t.readV vf).toNat = (if 255 < (s.readV x).toNat + (s.readV y).toNat then 1 else 0) ∧
    RegsKeptBut [x, vf] s t ∧ t.pc = s.pc + 2 ∧ KeptBut [.v, .pc] s t

/-- 42_alu.md, SUB and SUBN: the difference wraps mod 256 and VF is the strict comparison; with `x` = F the result is
written last and the flag is lost, which is the spec's decision D6 (log 10). -/
def Obligations.SubtractionsSetTheStrictFlag : Prop :=
  ∀ (x y : Reg) (s : State),
    (∃ t, exec (.subReg x y) s = .next t ∧
      (t.readV x).toNat = ((s.readV x).toNat + 256 - (s.readV y).toNat) % 256 ∧
      (x ≠ vf → (t.readV vf).toNat = if (s.readV y).toNat < (s.readV x).toNat then 1 else 0) ∧
      RegsKeptBut [x, vf] s t ∧ t.pc = s.pc + 2 ∧ KeptBut [.v, .pc] s t) ∧
    (∃ t, exec (.subnReg x y) s = .next t ∧
      (t.readV x).toNat = ((s.readV y).toNat + 256 - (s.readV x).toNat) % 256 ∧
      (x ≠ vf → (t.readV vf).toNat = if (s.readV x).toNat < (s.readV y).toNat then 1 else 0) ∧
      RegsKeptBut [x, vf] s t ∧ t.pc = s.pc + 2 ∧ KeptBut [.v, .pc] s t)

/-- 42_alu.md, SHR and SHL: Vx shifted in place by one, Vy ignored, VF the bit shifted out; with `x` = F the result is
written last and the flag is lost, which is the spec's decision D6 (log 10). -/
def Obligations.ShiftsKeepTheBitShiftedOut : Prop :=
  ∀ (x y : Reg) (s : State),
    (∃ t, exec (.shr x y) s = .next t ∧ (t.readV x).toNat = (s.readV x).toNat / 2 ∧
      (x ≠ vf → (t.readV vf).toNat = (s.readV x).toNat % 2) ∧
      RegsKeptBut [x, vf] s t ∧ t.pc = s.pc + 2 ∧ KeptBut [.v, .pc] s t) ∧
    (∃ t, exec (.shl x y) s = .next t ∧ (t.readV x).toNat = 2 * (s.readV x).toNat % 256 ∧
      (x ≠ vf → (t.readV vf).toNat = (s.readV x).toNat / 128) ∧
      RegsKeptBut [x, vf] s t ∧ t.pc = s.pc + 2 ∧ KeptBut [.v, .pc] s t)

/-- 42_alu.md, RND (the place of the random byte is the spec's decision D19, its supply the model's, log 3): the result is
the supplied byte, or a free byte where none is supplied, under the mask; the byte is consumed. -/
def Obligations.RandomByteIsMaskedAndConsumed : Prop :=
  ∀ (x : Reg) (kk : Byte) (s : State), ∃ t, exec (.rnd x kk) s = .next t ∧
    (∀ b rest, s.rndIn = b :: rest → t.readV x = b &&& kk ∧ t.rndIn = rest ∧ t.draws = s.draws) ∧
    (s.rndIn = [] → t.readV x = Config.freeRnd s.draws &&& kk ∧ t.rndIn = [] ∧ t.draws = s.draws + 1) ∧
    (∀ k, kk.getLsbD k = false → (t.readV x).getLsbD k = false) ∧
    RegsKeptBut [x] s t ∧ t.pc = s.pc + 2 ∧ KeptBut [.v, .pc, .rndIn, .draws] s t

/-- 10_state.md section 13 (the spec's decision D19, log 3): the byte on the input of the STEP that executes `Cxkk` is the
one it uses, and every other instruction ignores it: a completed STEP leaves the host's further supply as it was. -/
def Obligations.StepInputFeedsTheRandomInstruction : Prop :=
  ∀ (s : State) (r : Byte),
    (∀ x kk, s.fetch = .ok (encode (.rnd x kk)) → ∃ t, transact (.step r) s = .ok (.stepOk false, t) ∧
      t.readV x = r &&& kk ∧ RegsKeptBut [x] s t ∧ t.pc = s.pc + 2 ∧ KeptBut [.v, .pc, .loadOpen] s t) ∧
    (∀ reply t, transact (.step r) s = .ok (reply, t) → t.rndIn = s.rndIn ∧ t.draws = s.draws) ∧
    (∀ i, s.fetch = .ok (encode i) → i.wf = true → (∀ x kk, i ≠ .rnd x kk) →
      ∀ r', transact (.step r) s = transact (.step r') s)

/-! ## Index register and memory transfers -/

/-- 43_index_memory.md, LD I: the instruction is general knowledge by the spec's own word (D8, PRESUMED, log 7). -/
def Obligations.LoadIndexSetsI : Prop :=
  ∀ (nnn : BitVec 12) (s : State), ∃ t, exec (.ldI nnn) s = .next t ∧ t.i.toNat = nnn.toNat ∧ t.pc = s.pc + 2 ∧
    KeptBut [.i, .pc] s t

/-- 43_index_memory.md R171: ADD I, Vx keeps the low 16 bits and changes no general register, VF included. -/
def Obligations.AddToIndexWraps : Prop :=
  ∀ (x : Reg) (s : State), ∃ t, exec (.addI x) s = .next t ∧
    t.i.toNat = (s.i.toNat + (s.readV x).toNat) % 65536 ∧ t.pc = s.pc + 2 ∧ KeptBut [.i, .pc] s t

/-- 43_index_memory.md, LD F: I is five times the whole of Vx, with no mask, which is the spec's decision D12 (log 19). -/
def Obligations.FontAddressIsFiveTimesVx : Prop :=
  ∀ (x : Reg) (s : State), ∃ t, exec (.ldFont x) s = .next t ∧ t.i.toNat = 5 * (s.readV x).toNat ∧ t.pc = s.pc + 2 ∧
    KeptBut [.i, .pc] s t

/-- 43_index_memory.md R173: the three decimal digits of Vx at I, I + 1 and I + 2, every other byte and I unchanged; a
fault, and no byte stored, when I + 2 is 4096 or more. -/
def Obligations.BcdStoresTheDigits : Prop :=
  ∀ (x : Reg) (s : State), Memory.wf s.cfg s.mem →
    (memSize ≤ s.i.toNat + 2 →
      exec (.ldBcd x) s = .fault (.memoryOutOfBounds s.pc (max s.i.toNat memSize))) ∧
    (s.i.toNat + 2 < memSize → ∃ t, exec (.ldBcd x) s = .next t ∧
      (t.readByte (s.addrI 0)).toNat = (s.readV x).toNat / 100 ∧
      (t.readByte (s.addrI 1)).toNat = (s.readV x).toNat / 10 % 10 ∧
      (t.readByte (s.addrI 2)).toNat = (s.readV x).toNat % 10 ∧
      MemKeptOutside (s.addrI 0) 3 s t ∧ t.pc = s.pc + 2 ∧ KeptBut [.mem, .pc] s t)

/-- 43_index_memory.md R174: V0 to Vx stored at I to I + x, then I advanced by x + 1; a fault, and nothing stored, when
I + x is 4096 or more. -/
def Obligations.RegisterDumpStoresV0ToVx : Prop :=
  ∀ (x : Reg) (s : State), Memory.wf s.cfg s.mem →
    (memSize ≤ s.i.toNat + x.val →
      exec (.storeRegs x) s = .fault (.memoryOutOfBounds s.pc (max s.i.toNat memSize))) ∧
    (s.i.toNat + x.val < memSize → ∃ t, exec (.storeRegs x) s = .next t ∧
      (∀ k : Reg, k ≤ x → t.readByte (s.addrI k.val) = s.readV k) ∧
      MemKeptOutside (s.addrI 0) (x.val + 1) s t ∧ t.i.toNat = s.i.toNat + x.val + 1 ∧ t.pc = s.pc + 2 ∧
      KeptBut [.mem, .i, .pc] s t)

/-- 43_index_memory.md R175: V0 to Vx loaded from I to I + x, then I advanced by x + 1; a fault, and no register loaded,
when I + x is 4096 or more. -/
def Obligations.RegisterLoadReadsV0ToVx : Prop :=
  ∀ (x : Reg) (s : State),
    (memSize ≤ s.i.toNat + x.val →
      exec (.loadRegs x) s = .fault (.memoryOutOfBounds s.pc (max s.i.toNat memSize))) ∧
    (s.i.toNat + x.val < memSize → ∃ t, exec (.loadRegs x) s = .next t ∧
      (∀ k : Reg, k ≤ x → t.readV k = s.readByte (s.addrI k.val)) ∧ (∀ k : Reg, x < k → t.readV k = s.readV k) ∧
      t.i.toNat = s.i.toNat + x.val + 1 ∧ t.pc = s.pc + 2 ∧ KeptBut [.v, .i, .pc] s t)

/-- 43_index_memory.md sections on `Fx55` and `Fx65`: loading what was dumped, from the same I, gives the registers back,
whatever they held in between. -/
def Obligations.DumpThenLoadRestoresTheRegisters : Prop :=
  ∀ (x : Reg) (s t : State) (v' : Vector Byte 16), Memory.wf s.cfg s.mem → exec (.storeRegs x) s = .next t →
    ∃ u, exec (.loadRegs x) { t with i := s.i, v := v' } = .next u ∧ (∀ k : Reg, k ≤ x → u.readV k = s.readV k) ∧
      (∀ k : Reg, x < k → u.readV k = v'[k]) ∧ ∀ a, u.readByte a = t.readByte a

/-- 20_memory.md section 6 (R64): a store is seen by the very next fetch: two registers dumped onto the next instruction
are the word that is fetched after the dump. -/
def Obligations.StoreIsSeenByTheNextFetch : Prop :=
  ∀ (x j k : Reg) (s t : State), Memory.wf s.cfg s.mem → k.val = j.val + 1 → k ≤ x →
    s.addrI j.val = s.pc.toNat + 2 → exec (.storeRegs x) s = .next t →
    t.fetch = .ok (wordOfBytes (s.readV j) (s.readV k))

/-! ## Display -/

/-- 44_display.md R190: CLS blanks every cell and sets `dirty`, and its STEP has `display_changed`. -/
def Obligations.ClearBlanksTheDisplay : Prop :=
  ∀ s : State, (∃ t, exec .cls s = .next t ∧ (∀ x y, t.disp.cell x y = false) ∧ t.dirty = true ∧ t.pc = s.pc + 2 ∧
      KeptBut [.disp, .dirty, .pc] s t) ∧
    (s.fetch = .ok 0x00E0 → ∀ r, ∃ u, transact (.step r) s = .ok (.stepOk true, u))

/-- 44_display.md, DRW: the cells under the set bits of the sprite at I, at ((Vx + col) mod 64, (Vy + row) mod 32), are
toggled, every other cell is unchanged, and VF tells whether one of them was 1; zero rows read nothing and cannot fault.
Bit 7 leftmost is general knowledge by the spec's own word (D10, PRESUMED, log 9), and zero rows are its decision D22
(log 20). -/
def Obligations.DrawTogglesTheSpriteCells : Prop :=
  ∀ (x y : Reg) (n : Nat) (s : State), n < 16 →
    (0 < n → memSize ≤ s.i.toNat + n - 1 →
      exec (.drw x y n) s = .fault (.memoryOutOfBounds s.pc (max s.i.toNat memSize))) ∧
    ((n = 0 ∨ s.i.toNat + n - 1 < memSize) → ∃ t, exec (.drw x y n) s = .next t ∧
      (∀ cx cy,
        (underSprite (s.sprite n) (s.readV x).toNat (s.readV y).toNat cx cy →
          t.disp.cell cx cy = !s.disp.cell cx cy) ∧
        (¬ underSprite (s.sprite n) (s.readV x).toNat (s.readV y).toNat cx cy →
          t.disp.cell cx cy = s.disp.cell cx cy)) ∧
      ((∃ cx cy, underSprite (s.sprite n) (s.readV x).toNat (s.readV y).toNat cx cy ∧ s.disp.cell cx cy = true) →
        t.readV vf = 1) ∧
      ((∀ cx cy, underSprite (s.sprite n) (s.readV x).toNat (s.readV y).toNat cx cy → s.disp.cell cx cy = false) →
        t.readV vf = 0) ∧
      t.dirty = true ∧ RegsKeptBut [vf] s t ∧ t.pc = s.pc + 2 ∧ KeptBut [.v, .disp, .dirty, .pc] s t)

/-- 44_display.md section on the compositor's laws (R192 a): the same sprite drawn again at the same coordinates restores
the display, and VF is then 1 exactly when some cell under a set bit was 0 before the first draw. -/
def Obligations.DrawingTwiceRestoresTheDisplay : Prop :=
  ∀ (x y : Reg) (n : Nat) (s t : State), n < 16 → exec (.drw x y n) s = .next t →
    t.readV x = s.readV x → t.readV y = s.readV y →
    ∃ u, exec (.drw x y n) t = .next u ∧ (∀ cx cy, u.disp.cell cx cy = s.disp.cell cx cy) ∧
      (u.readV vf = 1 ↔
        ∃ cx cy, underSprite (s.sprite n) (s.readV x).toNat (s.readV y).toNat cx cy ∧ s.disp.cell cx cy = false) ∧
      (u.readV vf = 0 ∨ u.readV vf = 1)

/-- 44_display.md R193: the export is row-major, 2048 cells, with the dirty flag, which ACK_DIRTY clears, leaving every
cell, and which no instruction clears. -/
def Obligations.DisplayOutputIsRowMajor : Prop :=
  (∀ s : State, s.displayOut.1.length = 2048 ∧ s.displayOut.2 = s.dirty ∧
    ∀ (x : Fin 64) (y : Fin 32), s.displayOut.1[y.val * 64 + x.val]? = some (s.disp.cell x y)) ∧
  (∀ s : State, ∃ t, applyCommand .ackDirty s = .next t ∧ t.displayOut = (s.displayOut.1, false)) ∧
  (∀ (i : Instr) (s t : State), exec i s = .next t → s.displayOut.2 = true → t.displayOut.2 = true)

/-! ## Keypad and timers -/

/-- 45_keypad_timers.md, SKP and SKNP: the test of the key Vx; a Vx above 15 is a fault of the spec's own kind, its
decision D13 (log 12). -/
def Obligations.KeySkipsTestTheSnapshot : Prop :=
  ∀ (x : Reg) (s : State),
    (15 < (s.readV x).toNat → exec (.skp x) s = .fault (.keyIndexOutOfRange s.pc (s.readV x)) ∧
      exec (.sknp x) s = .fault (.keyIndexOutOfRange s.pc (s.readV x))) ∧
    (∀ k : Fin 16, (s.readV x).toNat = k.val →
      (∃ t, exec (.skp x) s = .next t ∧ KeptBut [.pc] s t ∧
        t.pc = if s.keys[k] = true then s.pc + 4 else s.pc + 2) ∧
      (∃ t, exec (.sknp x) s = .next t ∧ KeptBut [.pc] s t ∧
        t.pc = if s.keys[k] = true then s.pc + 2 else s.pc + 4))

/-- 45_keypad_timers.md, LD Vx, K: with no key pressed nothing at all changes and the result is no fault; otherwise Vx is
the lowest pressed key, which is the spec's decision D14 (log 18). -/
def Obligations.KeyWaitTakesTheLowestKey : Prop :=
  ∀ (x : Reg) (s : State),
    ((∀ k : Fin 16, s.keys[k] = false) → exec (.ldVxKey x) s = .next s) ∧
    (∀ k : Fin 16, s.keys[k] = true → (∀ j : Fin 16, j < k → s.keys[j] = false) →
      ∃ t, exec (.ldVxKey x) s = .next t ∧ (t.readV x).toNat = k.val ∧ RegsKeptBut [x] s t ∧ t.pc = s.pc + 2 ∧
        KeptBut [.v, .pc] s t)

/-- 45_keypad_timers.md R203, R204, R205: the three timer moves; `beep` after the load of the sound timer. -/
def Obligations.TimerMovesCopyTheByte : Prop :=
  ∀ (x : Reg) (s : State),
    (∃ t, exec (.ldVxDt x) s = .next t ∧ t.readV x = s.dt ∧ RegsKeptBut [x] s t ∧ t.pc = s.pc + 2 ∧
      KeptBut [.v, .pc] s t) ∧
    (∃ t, exec (.ldDtVx x) s = .next t ∧ t.dt = s.readV x ∧ t.pc = s.pc + 2 ∧ KeptBut [.dt, .pc] s t) ∧
    (∃ t, exec (.ldStVx x) s = .next t ∧ t.st = s.readV x ∧ t.pc = s.pc + 2 ∧ KeptBut [.st, .pc] s t ∧
      (t.beep = true ↔ 0 < (s.readV x).toNat))

/-- 60_exceptions.md R235: `beep` is `st > 0`, from the load of the sound timer to the DECAY that brings it to 0. -/
def Obligations.BeepLastsUntilTheTimerIsZero : Prop :=
  (∀ s : State, s.beep = true ↔ 0 < s.st.toNat) ∧
  (∀ (x : Reg) (s : State), ∃ t, exec (.ldStVx x) s = .next t ∧
    ∀ n : Nat, ∃ u, serve (List.replicate n .decay) t = .ok (List.replicate n .ok, u) ∧
      (u.beep = true ↔ n < (s.readV x).toNat))

/-- 60_exceptions.md R232: DECAY takes one from each timer that is positive, changes nothing else and does not fail; no
instruction decrements a timer. -/
def Obligations.DecayTakesOneFromEachTimer : Prop :=
  (∀ s : State, ∃ t, applyCommand .decay s = .next t ∧ t.dt.toNat = s.dt.toNat - 1 ∧ t.st.toNat = s.st.toNat - 1 ∧
    KeptBut [.dt, .st] s t ∧ transact .decay s = .ok (.ok, t)) ∧
  (∀ (i : Instr) (s t : State), exec i s = .next t →
    (t.dt = s.dt ∨ ∃ x, i = .ldDtVx x ∧ t.dt = s.readV x) ∧ (t.st = s.st ∨ ∃ x, i = .ldStVx x ∧ t.st = s.readV x))

/-- 95_test_vectors.md E11: any number of DECAY commands one after another takes that many from each timer, never going
below zero. -/
def Obligations.RepeatedDecayStopsAtZero : Prop :=
  ∀ (n : Nat) (s : State), ∃ t, serve (List.replicate n .decay) s = .ok (List.replicate n .ok, t) ∧
    t.dt.toNat = s.dt.toNat - n ∧ t.st.toNat = s.st.toNat - n ∧ KeptBut [.dt, .st] s t

/-! ## The other host commands -/

/-- 40_step_cycle.md section 3 (the spec's decisions D2 and D27, log 27): SET_KEYS writes the snapshot, ACK_DIRTY clears
the dirty flag, and each changes nothing else and does not fail. -/
def Obligations.SetKeysAndAckDirtyWriteOneElement : Prop :=
  ∀ (k : Vector Bool 16) (s : State),
    (∃ t, transact (.setKeys k) s = .ok (.ok, t) ∧ t.keys = k ∧ KeptBut [.keys] s t) ∧
    (∃ t, transact .ackDirty s = .ok (.ok, t) ∧ t.dirty = false ∧ KeptBut [.dirty] s t)

/-- 70_reset_and_hazards.md, LOAD (the spec's decision D21, logs 5 and 28): right after a RESET a ROM of at most 3584 bytes
is copied to 0x200 and up, and nothing else changes; a longer one is a fault and writes nothing; at any other time LOAD
has no meaning. -/
def Obligations.LoadCopiesTheRom : Prop :=
  ∀ (rom : List Byte) (s : State), Memory.wf s.cfg s.mem →
    (s.loadOpen = true → rom.length ≤ 3584 → ∃ t, transact (.load rom) s = .ok (.ok, t) ∧
      (∀ (k : Nat) (h : k < rom.length), t.readByte (0x200 + k) = rom[k]) ∧
      MemKeptOutside 0x200 rom.length s t ∧ t.loadOpen = false ∧ KeptBut [.mem, .loadOpen] s t) ∧
    (s.loadOpen = true → 3584 < rom.length → transact (.load rom) s = .ok (.fault (.romTooLarge rom.length), s)) ∧
    (s.loadOpen = false → transact (.load rom) s = .error .loadWithoutReset)

/-- 10_state.md Table R36 and 70_reset_and_hazards.md section 1 (the values of the display, the keys, the stack entries
and I are the spec's decision D18, log 6): RESET, from any state and for any FONT and DIRTY_AT_RESET; the machine's
parameters and what the host has queued stay (log 32). -/
def Obligations.ResetGivesTheResetValues : Prop :=
  ∀ s : State, ∃ t, transact .reset s = .ok (.ok, t) ∧
    (∀ k : Fin 80, t.readByte k.val = s.cfg.font[k]) ∧ (∀ a, 80 ≤ a → t.readByte a = 0) ∧
    (∀ r, t.readV r = 0) ∧ t.i = 0 ∧ t.pc = 0x200 ∧ t.sp = 0 ∧ (∀ k : Fin 16, t.stack[k] = 0) ∧
    t.dt = 0 ∧ t.st = 0 ∧ (∀ k : Fin 16, t.keys[k] = false) ∧ (∀ x y, t.disp.cell x y = false) ∧
    t.dirty = s.cfg.dirtyAtReset ∧ t.beep = false ∧ t.loadOpen = true ∧
    t.cfg = s.cfg ∧ t.rndIn = s.rndIn ∧ t.draws = s.draws ∧ t.pending = s.pending

/-- 70_reset_and_hazards.md section 2 (R263): after RESET and LOAD, from any state, the first word fetched is made of the
ROM's first two bytes, at 0x200. -/
def Obligations.BootFetchesTheFirstRomWord : Prop :=
  ∀ (s : State) (a b : Byte) (rest : List Byte), rest.length + 2 ≤ 3584 →
    ∃ t, serve [.reset, .load (a :: b :: rest)] s = .ok ([.ok, .ok], t) ∧ t.pc = 0x200 ∧
      t.fetch = .ok (wordOfBytes a b)
end

