-- ==== Sys2Proof/Laws/Decode.lean ====
section
/-! SUPPORT. The fields of a packed word, format by format (30_encoding.md Tables R81, R82), and of a word packed again
from its own fields. -/

namespace Sys2Proof

/-! ## Slices of a concatenation -/

/-- A slice that lies in the high part. -/
theorem extract_in_hi {n m : Nat} (a : BitVec n) (b : BitVec m) (s l : Nat) :
    (a ++ b).extractLsb' (m + s) l = a.extractLsb' s l := by
  apply BitVec.eq_of_getElem_eq
  intro i h
  have h1 : ¬ m + s + i < m := by omega
  have h2 : m + s + i - m = s + i := by omega
  simp [BitVec.getElem_extractLsb', BitVec.getLsbD_append, h1, h2]

/-- A slice that lies in the low part. -/
theorem extract_in_lo {n m : Nat} (a : BitVec n) (b : BitVec m) (s l : Nat) (h : s + l ≤ m) :
    (a ++ b).extractLsb' s l = b.extractLsb' s l := by
  apply BitVec.eq_of_getElem_eq
  intro i hi
  have h1 : s + i < m := by omega
  simp [BitVec.getElem_extractLsb', BitVec.getLsbD_append, h1]

/-- The whole of a vector as a slice. -/
theorem extract_all {n : Nat} (a : BitVec n) : a.extractLsb' 0 n = a := by
  apply BitVec.eq_of_getElem_eq
  intro i h
  simp

/-- Two neighbouring slices joined. -/
theorem extract_join {n : Nat} (w : BitVec n) (s l k : Nat) :
    w.extractLsb' (s + l) k ++ w.extractLsb' s l = w.extractLsb' s (k + l) := by
  apply BitVec.eq_of_getLsbD_eq
  intro i h
  simp only [BitVec.getLsbD_append, BitVec.getLsbD_extractLsb']
  by_cases hi : i < l
  · have : i < k + l := by omega
    simp [hi, this]
  · have e : s + l + (i - l) = s + i := by omega
    have : i - l < k ↔ i < k + l := by omega
    simp [hi, e, this]

@[simp] theorem regBits_toFin (x : Reg) : (regBits x).toFin = x := rfl

/-! ## The fields of each format -/

@[simp] theorem fieldOp_encodeNNN (op : BitVec 4) (nnn : BitVec 12) : fieldOp (encodeNNN op nnn) = op :=
  (extract_in_hi op nnn 0 4).trans (extract_all op)

@[simp] theorem fieldNNN_encodeNNN (op : BitVec 4) (nnn : BitVec 12) : fieldNNN (encodeNNN op nnn) = nnn :=
  (extract_in_lo op nnn 0 12 (by omega)).trans (extract_all nnn)

@[simp] theorem fieldOp_encodeXKK (op : BitVec 4) (x : Reg) (kk : Byte) : fieldOp (encodeXKK op x kk) = op :=
  (extract_in_hi (op ++ regBits x) kk 4 4).trans ((extract_in_hi op (regBits x) 0 4).trans (extract_all op))

@[simp] theorem fieldX_encodeXKK (op : BitVec 4) (x : Reg) (kk : Byte) : fieldX (encodeXKK op x kk) = x :=
  congrArg BitVec.toFin <| (extract_in_hi (op ++ regBits x) kk 0 4).trans
    ((extract_in_lo op (regBits x) 0 4 (by omega)).trans (extract_all (regBits x)))

@[simp] theorem fieldKK_encodeXKK (op : BitVec 4) (x : Reg) (kk : Byte) : fieldKK (encodeXKK op x kk) = kk :=
  (extract_in_lo (op ++ regBits x) kk 0 8 (by omega)).trans (extract_all kk)

@[simp] theorem fieldOp_encodeXYN (op : BitVec 4) (x y : Reg) (n : BitVec 4) : fieldOp (encodeXYN op x y n) = op :=
  (extract_in_hi (op ++ regBits x ++ regBits y) n 8 4).trans <|
    (extract_in_hi (op ++ regBits x) (regBits y) 4 4).trans <|
      (extract_in_hi op (regBits x) 0 4).trans (extract_all op)

@[simp] theorem fieldX_encodeXYN (op : BitVec 4) (x y : Reg) (n : BitVec 4) : fieldX (encodeXYN op x y n) = x :=
  congrArg BitVec.toFin <| (extract_in_hi (op ++ regBits x ++ regBits y) n 4 4).trans <|
    (extract_in_hi (op ++ regBits x) (regBits y) 0 4).trans <|
      (extract_in_lo op (regBits x) 0 4 (by omega)).trans (extract_all (regBits x))

@[simp] theorem fieldY_encodeXYN (op : BitVec 4) (x y : Reg) (n : BitVec 4) : fieldY (encodeXYN op x y n) = y :=
  congrArg BitVec.toFin <| (extract_in_hi (op ++ regBits x ++ regBits y) n 0 4).trans <|
    (extract_in_lo (op ++ regBits x) (regBits y) 0 4 (by omega)).trans (extract_all (regBits y))

@[simp] theorem fieldN_encodeXYN (op : BitVec 4) (x y : Reg) (n : BitVec 4) : fieldN (encodeXYN op x y n) = n :=
  (extract_in_lo (op ++ regBits x ++ regBits y) n 0 4 (by omega)).trans (extract_all n)

/-! ## A word is packed from its own fields -/

theorem encodeNNN_fields (w : Word) : encodeNNN (fieldOp w) (fieldNNN w) = w :=
  (extract_join w 0 12 4).trans (extract_all w)

theorem encodeXKK_fields (w : Word) : encodeXKK (fieldOp w) (fieldX w) (fieldKK w) = w := by
  show (w.extractLsb' 12 4 ++ w.extractLsb' 8 4) ++ w.extractLsb' 0 8 = w
  rw [extract_join w 8 4 4]
  exact (extract_join w 0 8 8).trans (extract_all w)

theorem encodeXYN_fields (w : Word) : encodeXYN (fieldOp w) (fieldX w) (fieldY w) (fieldN w) = w := by
  show ((w.extractLsb' 12 4 ++ w.extractLsb' 8 4) ++ w.extractLsb' 4 4) ++ w.extractLsb' 0 4 = w
  rw [extract_join w 8 4 4, extract_join w 4 4 8]
  exact (extract_join w 0 4 12).trans (extract_all w)

/-! ## Bytes -/

@[simp] theorem wordOfBytes_bytesOfWord (w : Word) :
    wordOfBytes (w.extractLsb' 8 8) (w.extractLsb' 0 8) = w :=
  (extract_join w 0 8 8).trans (extract_all w)

theorem wordOfBytes_hi (hi lo : Byte) : (wordOfBytes hi lo).extractLsb' 8 8 = hi :=
  (extract_in_hi hi lo 0 8).trans (extract_all hi)

theorem wordOfBytes_lo (hi lo : Byte) : (wordOfBytes hi lo).extractLsb' 0 8 = lo :=
  (extract_in_lo hi lo 0 8 (by omega)).trans (extract_all lo)

end Sys2Proof
end

