-- ==== Sys2Proof/Laws/State.lean ====
section
/-! SUPPORT. One lemma per field per update of State, and what each read sees through each update. -/

namespace Sys2Proof.Machine

/-! ## writeByte -/

@[simp] theorem State.writeByte_mem (s : State) (a : Nat) (b : Byte) : (s.writeByte a b).mem = Memory.write s.cfg s.mem a b := rfl
@[simp] theorem State.writeByte_v (s : State) (a : Nat) (b : Byte) : (s.writeByte a b).v = s.v := rfl
@[simp] theorem State.writeByte_i (s : State) (a : Nat) (b : Byte) : (s.writeByte a b).i = s.i := rfl
@[simp] theorem State.writeByte_pc (s : State) (a : Nat) (b : Byte) : (s.writeByte a b).pc = s.pc := rfl
@[simp] theorem State.writeByte_stack (s : State) (a : Nat) (b : Byte) : (s.writeByte a b).stack = s.stack := rfl
@[simp] theorem State.writeByte_sp (s : State) (a : Nat) (b : Byte) : (s.writeByte a b).sp = s.sp := rfl
@[simp] theorem State.writeByte_dt (s : State) (a : Nat) (b : Byte) : (s.writeByte a b).dt = s.dt := rfl
@[simp] theorem State.writeByte_st (s : State) (a : Nat) (b : Byte) : (s.writeByte a b).st = s.st := rfl
@[simp] theorem State.writeByte_keys (s : State) (a : Nat) (b : Byte) : (s.writeByte a b).keys = s.keys := rfl
@[simp] theorem State.writeByte_disp (s : State) (a : Nat) (b : Byte) : (s.writeByte a b).disp = s.disp := rfl
@[simp] theorem State.writeByte_dirty (s : State) (a : Nat) (b : Byte) : (s.writeByte a b).dirty = s.dirty := rfl
@[simp] theorem State.writeByte_cfg (s : State) (a : Nat) (b : Byte) : (s.writeByte a b).cfg = s.cfg := rfl
@[simp] theorem State.writeByte_rndIn (s : State) (a : Nat) (b : Byte) : (s.writeByte a b).rndIn = s.rndIn := rfl
@[simp] theorem State.writeByte_draws (s : State) (a : Nat) (b : Byte) : (s.writeByte a b).draws = s.draws := rfl
@[simp] theorem State.writeByte_pending (s : State) (a : Nat) (b : Byte) : (s.writeByte a b).pending = s.pending := rfl
@[simp] theorem State.writeByte_loadOpen (s : State) (a : Nat) (b : Byte) : (s.writeByte a b).loadOpen = s.loadOpen := rfl

/-! ## writeV -/

@[simp] theorem State.writeV_mem (s : State) (x : Reg) (b : Byte) : (s.writeV x b).mem = s.mem := rfl
@[simp] theorem State.writeV_v (s : State) (x : Reg) (b : Byte) : (s.writeV x b).v = s.v.set x b := rfl
@[simp] theorem State.writeV_i (s : State) (x : Reg) (b : Byte) : (s.writeV x b).i = s.i := rfl
@[simp] theorem State.writeV_pc (s : State) (x : Reg) (b : Byte) : (s.writeV x b).pc = s.pc := rfl
@[simp] theorem State.writeV_stack (s : State) (x : Reg) (b : Byte) : (s.writeV x b).stack = s.stack := rfl
@[simp] theorem State.writeV_sp (s : State) (x : Reg) (b : Byte) : (s.writeV x b).sp = s.sp := rfl
@[simp] theorem State.writeV_dt (s : State) (x : Reg) (b : Byte) : (s.writeV x b).dt = s.dt := rfl
@[simp] theorem State.writeV_st (s : State) (x : Reg) (b : Byte) : (s.writeV x b).st = s.st := rfl
@[simp] theorem State.writeV_keys (s : State) (x : Reg) (b : Byte) : (s.writeV x b).keys = s.keys := rfl
@[simp] theorem State.writeV_disp (s : State) (x : Reg) (b : Byte) : (s.writeV x b).disp = s.disp := rfl
@[simp] theorem State.writeV_dirty (s : State) (x : Reg) (b : Byte) : (s.writeV x b).dirty = s.dirty := rfl
@[simp] theorem State.writeV_cfg (s : State) (x : Reg) (b : Byte) : (s.writeV x b).cfg = s.cfg := rfl
@[simp] theorem State.writeV_rndIn (s : State) (x : Reg) (b : Byte) : (s.writeV x b).rndIn = s.rndIn := rfl
@[simp] theorem State.writeV_draws (s : State) (x : Reg) (b : Byte) : (s.writeV x b).draws = s.draws := rfl
@[simp] theorem State.writeV_pending (s : State) (x : Reg) (b : Byte) : (s.writeV x b).pending = s.pending := rfl
@[simp] theorem State.writeV_loadOpen (s : State) (x : Reg) (b : Byte) : (s.writeV x b).loadOpen = s.loadOpen := rfl

/-! ## setI -/

@[simp] theorem State.setI_mem (s : State) (w : Word) : (s.setI w).mem = s.mem := rfl
@[simp] theorem State.setI_v (s : State) (w : Word) : (s.setI w).v = s.v := rfl
@[simp] theorem State.setI_i (s : State) (w : Word) : (s.setI w).i = w := rfl
@[simp] theorem State.setI_pc (s : State) (w : Word) : (s.setI w).pc = s.pc := rfl
@[simp] theorem State.setI_stack (s : State) (w : Word) : (s.setI w).stack = s.stack := rfl
@[simp] theorem State.setI_sp (s : State) (w : Word) : (s.setI w).sp = s.sp := rfl
@[simp] theorem State.setI_dt (s : State) (w : Word) : (s.setI w).dt = s.dt := rfl
@[simp] theorem State.setI_st (s : State) (w : Word) : (s.setI w).st = s.st := rfl
@[simp] theorem State.setI_keys (s : State) (w : Word) : (s.setI w).keys = s.keys := rfl
@[simp] theorem State.setI_disp (s : State) (w : Word) : (s.setI w).disp = s.disp := rfl
@[simp] theorem State.setI_dirty (s : State) (w : Word) : (s.setI w).dirty = s.dirty := rfl
@[simp] theorem State.setI_cfg (s : State) (w : Word) : (s.setI w).cfg = s.cfg := rfl
@[simp] theorem State.setI_rndIn (s : State) (w : Word) : (s.setI w).rndIn = s.rndIn := rfl
@[simp] theorem State.setI_draws (s : State) (w : Word) : (s.setI w).draws = s.draws := rfl
@[simp] theorem State.setI_pending (s : State) (w : Word) : (s.setI w).pending = s.pending := rfl
@[simp] theorem State.setI_loadOpen (s : State) (w : Word) : (s.setI w).loadOpen = s.loadOpen := rfl

/-! ## setDt -/

@[simp] theorem State.setDt_mem (s : State) (b : Byte) : (s.setDt b).mem = s.mem := rfl
@[simp] theorem State.setDt_v (s : State) (b : Byte) : (s.setDt b).v = s.v := rfl
@[simp] theorem State.setDt_i (s : State) (b : Byte) : (s.setDt b).i = s.i := rfl
@[simp] theorem State.setDt_pc (s : State) (b : Byte) : (s.setDt b).pc = s.pc := rfl
@[simp] theorem State.setDt_stack (s : State) (b : Byte) : (s.setDt b).stack = s.stack := rfl
@[simp] theorem State.setDt_sp (s : State) (b : Byte) : (s.setDt b).sp = s.sp := rfl
@[simp] theorem State.setDt_dt (s : State) (b : Byte) : (s.setDt b).dt = b := rfl
@[simp] theorem State.setDt_st (s : State) (b : Byte) : (s.setDt b).st = s.st := rfl
@[simp] theorem State.setDt_keys (s : State) (b : Byte) : (s.setDt b).keys = s.keys := rfl
@[simp] theorem State.setDt_disp (s : State) (b : Byte) : (s.setDt b).disp = s.disp := rfl
@[simp] theorem State.setDt_dirty (s : State) (b : Byte) : (s.setDt b).dirty = s.dirty := rfl
@[simp] theorem State.setDt_cfg (s : State) (b : Byte) : (s.setDt b).cfg = s.cfg := rfl
@[simp] theorem State.setDt_rndIn (s : State) (b : Byte) : (s.setDt b).rndIn = s.rndIn := rfl
@[simp] theorem State.setDt_draws (s : State) (b : Byte) : (s.setDt b).draws = s.draws := rfl
@[simp] theorem State.setDt_pending (s : State) (b : Byte) : (s.setDt b).pending = s.pending := rfl
@[simp] theorem State.setDt_loadOpen (s : State) (b : Byte) : (s.setDt b).loadOpen = s.loadOpen := rfl

/-! ## setSt -/

@[simp] theorem State.setSt_mem (s : State) (b : Byte) : (s.setSt b).mem = s.mem := rfl
@[simp] theorem State.setSt_v (s : State) (b : Byte) : (s.setSt b).v = s.v := rfl
@[simp] theorem State.setSt_i (s : State) (b : Byte) : (s.setSt b).i = s.i := rfl
@[simp] theorem State.setSt_pc (s : State) (b : Byte) : (s.setSt b).pc = s.pc := rfl
@[simp] theorem State.setSt_stack (s : State) (b : Byte) : (s.setSt b).stack = s.stack := rfl
@[simp] theorem State.setSt_sp (s : State) (b : Byte) : (s.setSt b).sp = s.sp := rfl
@[simp] theorem State.setSt_dt (s : State) (b : Byte) : (s.setSt b).dt = s.dt := rfl
@[simp] theorem State.setSt_st (s : State) (b : Byte) : (s.setSt b).st = b := rfl
@[simp] theorem State.setSt_keys (s : State) (b : Byte) : (s.setSt b).keys = s.keys := rfl
@[simp] theorem State.setSt_disp (s : State) (b : Byte) : (s.setSt b).disp = s.disp := rfl
@[simp] theorem State.setSt_dirty (s : State) (b : Byte) : (s.setSt b).dirty = s.dirty := rfl
@[simp] theorem State.setSt_cfg (s : State) (b : Byte) : (s.setSt b).cfg = s.cfg := rfl
@[simp] theorem State.setSt_rndIn (s : State) (b : Byte) : (s.setSt b).rndIn = s.rndIn := rfl
@[simp] theorem State.setSt_draws (s : State) (b : Byte) : (s.setSt b).draws = s.draws := rfl
@[simp] theorem State.setSt_pending (s : State) (b : Byte) : (s.setSt b).pending = s.pending := rfl
@[simp] theorem State.setSt_loadOpen (s : State) (b : Byte) : (s.setSt b).loadOpen = s.loadOpen := rfl

/-! ## setDisp -/

@[simp] theorem State.setDisp_mem (s : State) (d : Display) : (s.setDisp d).mem = s.mem := rfl
@[simp] theorem State.setDisp_v (s : State) (d : Display) : (s.setDisp d).v = s.v := rfl
@[simp] theorem State.setDisp_i (s : State) (d : Display) : (s.setDisp d).i = s.i := rfl
@[simp] theorem State.setDisp_pc (s : State) (d : Display) : (s.setDisp d).pc = s.pc := rfl
@[simp] theorem State.setDisp_stack (s : State) (d : Display) : (s.setDisp d).stack = s.stack := rfl
@[simp] theorem State.setDisp_sp (s : State) (d : Display) : (s.setDisp d).sp = s.sp := rfl
@[simp] theorem State.setDisp_dt (s : State) (d : Display) : (s.setDisp d).dt = s.dt := rfl
@[simp] theorem State.setDisp_st (s : State) (d : Display) : (s.setDisp d).st = s.st := rfl
@[simp] theorem State.setDisp_keys (s : State) (d : Display) : (s.setDisp d).keys = s.keys := rfl
@[simp] theorem State.setDisp_disp (s : State) (d : Display) : (s.setDisp d).disp = d := rfl
@[simp] theorem State.setDisp_dirty (s : State) (d : Display) : (s.setDisp d).dirty = true := rfl
@[simp] theorem State.setDisp_cfg (s : State) (d : Display) : (s.setDisp d).cfg = s.cfg := rfl
@[simp] theorem State.setDisp_rndIn (s : State) (d : Display) : (s.setDisp d).rndIn = s.rndIn := rfl
@[simp] theorem State.setDisp_draws (s : State) (d : Display) : (s.setDisp d).draws = s.draws := rfl
@[simp] theorem State.setDisp_pending (s : State) (d : Display) : (s.setDisp d).pending = s.pending := rfl
@[simp] theorem State.setDisp_loadOpen (s : State) (d : Display) : (s.setDisp d).loadOpen = s.loadOpen := rfl

/-! ## setPc -/

@[simp] theorem State.setPc_mem (s : State) (w : Word) : (s.setPc w).mem = s.mem := rfl
@[simp] theorem State.setPc_v (s : State) (w : Word) : (s.setPc w).v = s.v := rfl
@[simp] theorem State.setPc_i (s : State) (w : Word) : (s.setPc w).i = s.i := rfl
@[simp] theorem State.setPc_pc (s : State) (w : Word) : (s.setPc w).pc = w := rfl
@[simp] theorem State.setPc_stack (s : State) (w : Word) : (s.setPc w).stack = s.stack := rfl
@[simp] theorem State.setPc_sp (s : State) (w : Word) : (s.setPc w).sp = s.sp := rfl
@[simp] theorem State.setPc_dt (s : State) (w : Word) : (s.setPc w).dt = s.dt := rfl
@[simp] theorem State.setPc_st (s : State) (w : Word) : (s.setPc w).st = s.st := rfl
@[simp] theorem State.setPc_keys (s : State) (w : Word) : (s.setPc w).keys = s.keys := rfl
@[simp] theorem State.setPc_disp (s : State) (w : Word) : (s.setPc w).disp = s.disp := rfl
@[simp] theorem State.setPc_dirty (s : State) (w : Word) : (s.setPc w).dirty = s.dirty := rfl
@[simp] theorem State.setPc_cfg (s : State) (w : Word) : (s.setPc w).cfg = s.cfg := rfl
@[simp] theorem State.setPc_rndIn (s : State) (w : Word) : (s.setPc w).rndIn = s.rndIn := rfl
@[simp] theorem State.setPc_draws (s : State) (w : Word) : (s.setPc w).draws = s.draws := rfl
@[simp] theorem State.setPc_pending (s : State) (w : Word) : (s.setPc w).pending = s.pending := rfl
@[simp] theorem State.setPc_loadOpen (s : State) (w : Word) : (s.setPc w).loadOpen = s.loadOpen := rfl

/-! ## advance -/

@[simp] theorem State.advance_mem (s : State) : (s.advance).mem = s.mem := rfl
@[simp] theorem State.advance_v (s : State) : (s.advance).v = s.v := rfl
@[simp] theorem State.advance_i (s : State) : (s.advance).i = s.i := rfl
@[simp] theorem State.advance_pc (s : State) : (s.advance).pc = s.pc + 2 := rfl
@[simp] theorem State.advance_stack (s : State) : (s.advance).stack = s.stack := rfl
@[simp] theorem State.advance_sp (s : State) : (s.advance).sp = s.sp := rfl
@[simp] theorem State.advance_dt (s : State) : (s.advance).dt = s.dt := rfl
@[simp] theorem State.advance_st (s : State) : (s.advance).st = s.st := rfl
@[simp] theorem State.advance_keys (s : State) : (s.advance).keys = s.keys := rfl
@[simp] theorem State.advance_disp (s : State) : (s.advance).disp = s.disp := rfl
@[simp] theorem State.advance_dirty (s : State) : (s.advance).dirty = s.dirty := rfl
@[simp] theorem State.advance_cfg (s : State) : (s.advance).cfg = s.cfg := rfl
@[simp] theorem State.advance_rndIn (s : State) : (s.advance).rndIn = s.rndIn := rfl
@[simp] theorem State.advance_draws (s : State) : (s.advance).draws = s.draws := rfl
@[simp] theorem State.advance_pending (s : State) : (s.advance).pending = s.pending := rfl
@[simp] theorem State.advance_loadOpen (s : State) : (s.advance).loadOpen = s.loadOpen := rfl

/-! ## skip -/

@[simp] theorem State.skip_mem (s : State) : (s.skip).mem = s.mem := rfl
@[simp] theorem State.skip_v (s : State) : (s.skip).v = s.v := rfl
@[simp] theorem State.skip_i (s : State) : (s.skip).i = s.i := rfl
@[simp] theorem State.skip_pc (s : State) : (s.skip).pc = s.pc + 4 := rfl
@[simp] theorem State.skip_stack (s : State) : (s.skip).stack = s.stack := rfl
@[simp] theorem State.skip_sp (s : State) : (s.skip).sp = s.sp := rfl
@[simp] theorem State.skip_dt (s : State) : (s.skip).dt = s.dt := rfl
@[simp] theorem State.skip_st (s : State) : (s.skip).st = s.st := rfl
@[simp] theorem State.skip_keys (s : State) : (s.skip).keys = s.keys := rfl
@[simp] theorem State.skip_disp (s : State) : (s.skip).disp = s.disp := rfl
@[simp] theorem State.skip_dirty (s : State) : (s.skip).dirty = s.dirty := rfl
@[simp] theorem State.skip_cfg (s : State) : (s.skip).cfg = s.cfg := rfl
@[simp] theorem State.skip_rndIn (s : State) : (s.skip).rndIn = s.rndIn := rfl
@[simp] theorem State.skip_draws (s : State) : (s.skip).draws = s.draws := rfl
@[simp] theorem State.skip_pending (s : State) : (s.skip).pending = s.pending := rfl
@[simp] theorem State.skip_loadOpen (s : State) : (s.skip).loadOpen = s.loadOpen := rfl

/-! ## closeLoad -/

@[simp] theorem State.closeLoad_mem (s : State) : (s.closeLoad).mem = s.mem := rfl
@[simp] theorem State.closeLoad_v (s : State) : (s.closeLoad).v = s.v := rfl
@[simp] theorem State.closeLoad_i (s : State) : (s.closeLoad).i = s.i := rfl
@[simp] theorem State.closeLoad_pc (s : State) : (s.closeLoad).pc = s.pc := rfl
@[simp] theorem State.closeLoad_stack (s : State) : (s.closeLoad).stack = s.stack := rfl
@[simp] theorem State.closeLoad_sp (s : State) : (s.closeLoad).sp = s.sp := rfl
@[simp] theorem State.closeLoad_dt (s : State) : (s.closeLoad).dt = s.dt := rfl
@[simp] theorem State.closeLoad_st (s : State) : (s.closeLoad).st = s.st := rfl
@[simp] theorem State.closeLoad_keys (s : State) : (s.closeLoad).keys = s.keys := rfl
@[simp] theorem State.closeLoad_disp (s : State) : (s.closeLoad).disp = s.disp := rfl
@[simp] theorem State.closeLoad_dirty (s : State) : (s.closeLoad).dirty = s.dirty := rfl
@[simp] theorem State.closeLoad_cfg (s : State) : (s.closeLoad).cfg = s.cfg := rfl
@[simp] theorem State.closeLoad_rndIn (s : State) : (s.closeLoad).rndIn = s.rndIn := rfl
@[simp] theorem State.closeLoad_draws (s : State) : (s.closeLoad).draws = s.draws := rfl
@[simp] theorem State.closeLoad_pending (s : State) : (s.closeLoad).pending = s.pending := rfl
@[simp] theorem State.closeLoad_loadOpen (s : State) : (s.closeLoad).loadOpen = false := rfl

/-! ## writeBytes: only memory changes -/

@[simp] theorem State.writeBytes_v (s : State) (base : Nat) (bs : List Byte) :
    (s.writeBytes base bs).v = s.v := by
  induction bs generalizing s base with
  | nil => rfl
  | cons b bs ih => simp [State.writeBytes, ih]

@[simp] theorem State.writeBytes_i (s : State) (base : Nat) (bs : List Byte) :
    (s.writeBytes base bs).i = s.i := by
  induction bs generalizing s base with
  | nil => rfl
  | cons b bs ih => simp [State.writeBytes, ih]

@[simp] theorem State.writeBytes_pc (s : State) (base : Nat) (bs : List Byte) :
    (s.writeBytes base bs).pc = s.pc := by
  induction bs generalizing s base with
  | nil => rfl
  | cons b bs ih => simp [State.writeBytes, ih]

@[simp] theorem State.writeBytes_stack (s : State) (base : Nat) (bs : List Byte) :
    (s.writeBytes base bs).stack = s.stack := by
  induction bs generalizing s base with
  | nil => rfl
  | cons b bs ih => simp [State.writeBytes, ih]

@[simp] theorem State.writeBytes_sp (s : State) (base : Nat) (bs : List Byte) :
    (s.writeBytes base bs).sp = s.sp := by
  induction bs generalizing s base with
  | nil => rfl
  | cons b bs ih => simp [State.writeBytes, ih]

@[simp] theorem State.writeBytes_dt (s : State) (base : Nat) (bs : List Byte) :
    (s.writeBytes base bs).dt = s.dt := by
  induction bs generalizing s base with
  | nil => rfl
  | cons b bs ih => simp [State.writeBytes, ih]

@[simp] theorem State.writeBytes_st (s : State) (base : Nat) (bs : List Byte) :
    (s.writeBytes base bs).st = s.st := by
  induction bs generalizing s base with
  | nil => rfl
  | cons b bs ih => simp [State.writeBytes, ih]

@[simp] theorem State.writeBytes_keys (s : State) (base : Nat) (bs : List Byte) :
    (s.writeBytes base bs).keys = s.keys := by
  induction bs generalizing s base with
  | nil => rfl
  | cons b bs ih => simp [State.writeBytes, ih]

@[simp] theorem State.writeBytes_disp (s : State) (base : Nat) (bs : List Byte) :
    (s.writeBytes base bs).disp = s.disp := by
  induction bs generalizing s base with
  | nil => rfl
  | cons b bs ih => simp [State.writeBytes, ih]

@[simp] theorem State.writeBytes_dirty (s : State) (base : Nat) (bs : List Byte) :
    (s.writeBytes base bs).dirty = s.dirty := by
  induction bs generalizing s base with
  | nil => rfl
  | cons b bs ih => simp [State.writeBytes, ih]

@[simp] theorem State.writeBytes_cfg (s : State) (base : Nat) (bs : List Byte) :
    (s.writeBytes base bs).cfg = s.cfg := by
  induction bs generalizing s base with
  | nil => rfl
  | cons b bs ih => simp [State.writeBytes, ih]

@[simp] theorem State.writeBytes_rndIn (s : State) (base : Nat) (bs : List Byte) :
    (s.writeBytes base bs).rndIn = s.rndIn := by
  induction bs generalizing s base with
  | nil => rfl
  | cons b bs ih => simp [State.writeBytes, ih]

@[simp] theorem State.writeBytes_draws (s : State) (base : Nat) (bs : List Byte) :
    (s.writeBytes base bs).draws = s.draws := by
  induction bs generalizing s base with
  | nil => rfl
  | cons b bs ih => simp [State.writeBytes, ih]

@[simp] theorem State.writeBytes_pending (s : State) (base : Nat) (bs : List Byte) :
    (s.writeBytes base bs).pending = s.pending := by
  induction bs generalizing s base with
  | nil => rfl
  | cons b bs ih => simp [State.writeBytes, ih]

@[simp] theorem State.writeBytes_loadOpen (s : State) (base : Nat) (bs : List Byte) :
    (s.writeBytes base bs).loadOpen = s.loadOpen := by
  induction bs generalizing s base with
  | nil => rfl
  | cons b bs ih => simp [State.writeBytes, ih]

/-! ## skipIf: only the pc changes -/

@[simp] theorem State.skipIf_mem (s : State) (c : Bool) : (s.skipIf c).mem = s.mem := by
  cases c <;> rfl

@[simp] theorem State.skipIf_v (s : State) (c : Bool) : (s.skipIf c).v = s.v := by
  cases c <;> rfl

@[simp] theorem State.skipIf_i (s : State) (c : Bool) : (s.skipIf c).i = s.i := by
  cases c <;> rfl

@[simp] theorem State.skipIf_stack (s : State) (c : Bool) : (s.skipIf c).stack = s.stack := by
  cases c <;> rfl

@[simp] theorem State.skipIf_sp (s : State) (c : Bool) : (s.skipIf c).sp = s.sp := by
  cases c <;> rfl

@[simp] theorem State.skipIf_dt (s : State) (c : Bool) : (s.skipIf c).dt = s.dt := by
  cases c <;> rfl

@[simp] theorem State.skipIf_st (s : State) (c : Bool) : (s.skipIf c).st = s.st := by
  cases c <;> rfl

@[simp] theorem State.skipIf_keys (s : State) (c : Bool) : (s.skipIf c).keys = s.keys := by
  cases c <;> rfl

@[simp] theorem State.skipIf_disp (s : State) (c : Bool) : (s.skipIf c).disp = s.disp := by
  cases c <;> rfl

@[simp] theorem State.skipIf_dirty (s : State) (c : Bool) : (s.skipIf c).dirty = s.dirty := by
  cases c <;> rfl

@[simp] theorem State.skipIf_cfg (s : State) (c : Bool) : (s.skipIf c).cfg = s.cfg := by
  cases c <;> rfl

@[simp] theorem State.skipIf_rndIn (s : State) (c : Bool) : (s.skipIf c).rndIn = s.rndIn := by
  cases c <;> rfl

@[simp] theorem State.skipIf_draws (s : State) (c : Bool) : (s.skipIf c).draws = s.draws := by
  cases c <;> rfl

@[simp] theorem State.skipIf_pending (s : State) (c : Bool) : (s.skipIf c).pending = s.pending := by
  cases c <;> rfl

@[simp] theorem State.skipIf_loadOpen (s : State) (c : Bool) : (s.skipIf c).loadOpen = s.loadOpen := by
  cases c <;> rfl

@[simp] theorem State.skipIf_pc (s : State) (c : Bool) :
    (s.skipIf c).pc = if c then s.pc + 4 else s.pc + 2 := by
  cases c <;> rfl

/-! ## Reads through updates -/

theorem State.readV_congr {s t : State} (h : t.v = s.v) (r : Reg) : t.readV r = s.readV r := by
  simp [State.readV, h]

theorem State.readByte_congr {s t : State} (hm : t.mem = s.mem) (hc : t.cfg = s.cfg) (a : Nat) :
    t.readByte a = s.readByte a := by
  simp [State.readByte, hm, hc]

theorem State.readV_writeV (s : State) (x r : Reg) (b : Byte) :
    (s.writeV x b).readV r = if r = x then b else s.readV r := by
  by_cases h : r = x
  · subst h; simp [State.readV]
  · have hne : x.val ≠ r.val := fun e => h (Fin.ext e.symm)
    simp [State.readV, h, hne]

@[simp] theorem State.readV_writeV_same (s : State) (x : Reg) (b : Byte) : (s.writeV x b).readV x = b := by
  simp [State.readV_writeV]

theorem State.readV_writeV_other (s : State) {x r : Reg} (b : Byte) (h : r ≠ x) :
    (s.writeV x b).readV r = s.readV r := by
  simp [State.readV_writeV, h]

@[simp] theorem State.readV_writeByte (s : State) (a : Nat) (b : Byte) (r : Reg) : (s.writeByte a b).readV r = s.readV r := rfl
@[simp] theorem State.readByte_writeV (s : State) (x : Reg) (b : Byte) (k : Nat) : (s.writeV x b).readByte k = s.readByte k := rfl
@[simp] theorem State.readV_setI (s : State) (w : Word) (r : Reg) : (s.setI w).readV r = s.readV r := rfl
@[simp] theorem State.readByte_setI (s : State) (w : Word) (k : Nat) : (s.setI w).readByte k = s.readByte k := rfl
@[simp] theorem State.readV_setDt (s : State) (b : Byte) (r : Reg) : (s.setDt b).readV r = s.readV r := rfl
@[simp] theorem State.readByte_setDt (s : State) (b : Byte) (k : Nat) : (s.setDt b).readByte k = s.readByte k := rfl
@[simp] theorem State.readV_setSt (s : State) (b : Byte) (r : Reg) : (s.setSt b).readV r = s.readV r := rfl
@[simp] theorem State.readByte_setSt (s : State) (b : Byte) (k : Nat) : (s.setSt b).readByte k = s.readByte k := rfl
@[simp] theorem State.readV_setDisp (s : State) (d : Display) (r : Reg) : (s.setDisp d).readV r = s.readV r := rfl
@[simp] theorem State.readByte_setDisp (s : State) (d : Display) (k : Nat) : (s.setDisp d).readByte k = s.readByte k := rfl
@[simp] theorem State.readV_setPc (s : State) (w : Word) (r : Reg) : (s.setPc w).readV r = s.readV r := rfl
@[simp] theorem State.readByte_setPc (s : State) (w : Word) (k : Nat) : (s.setPc w).readByte k = s.readByte k := rfl
@[simp] theorem State.readV_advance (s : State) (r : Reg) : (s.advance).readV r = s.readV r := rfl
@[simp] theorem State.readByte_advance (s : State) (k : Nat) : (s.advance).readByte k = s.readByte k := rfl
@[simp] theorem State.readV_skip (s : State) (r : Reg) : (s.skip).readV r = s.readV r := rfl
@[simp] theorem State.readByte_skip (s : State) (k : Nat) : (s.skip).readByte k = s.readByte k := rfl
@[simp] theorem State.readV_closeLoad (s : State) (r : Reg) : (s.closeLoad).readV r = s.readV r := rfl
@[simp] theorem State.readByte_closeLoad (s : State) (k : Nat) : (s.closeLoad).readByte k = s.readByte k := rfl
@[simp] theorem State.readV_writeBytes (s : State) (base : Nat) (bs : List Byte) (r : Reg) :
    (s.writeBytes base bs).readV r = s.readV r := State.readV_congr (by simp) r
@[simp] theorem State.readV_skipIf (s : State) (c : Bool) (r : Reg) : (s.skipIf c).readV r = s.readV r :=
  State.readV_congr (by simp) r
@[simp] theorem State.readByte_skipIf (s : State) (c : Bool) (k : Nat) : (s.skipIf c).readByte k = s.readByte k :=
  State.readByte_congr (by simp) (by simp) k

/-! ## The frame -/

theorem KeptBut.refl (es : List Elem) (s : State) : KeptBut es s s := by
  intro e _; cases e <;> simp [Elem.kept]

theorem KeptBut.trans {es : List Elem} {s t u : State} (h : KeptBut es s t) (k : KeptBut es t u) : KeptBut es s u := by
  intro e he
  have h1 := h e he
  have h2 := k e he
  cases e <;> simp_all [Elem.kept]

theorem KeptBut.mono {es fs : List Elem} {s t : State} (h : KeptBut es s t) (hsub : ∀ e ∈ es, e ∈ fs) :
    KeptBut fs s t := fun e he => h e fun hm => he (hsub e hm)

/-- A frame is shown field by field. -/
theorem keptBut_of_fields {es : List Elem} {s t : State}
    (h : ∀ e, e ∈ [Elem.mem, .v, .i, .pc, .stack, .sp, .dt, .st, .keys, .disp, .dirty, .cfg, .rndIn, .draws,
      .pending, .loadOpen] → e ∈ es ∨ e.kept s t) : KeptBut es s t := by
  intro e he
  have := h e (by cases e <;> simp)
  exact this.resolve_left he

end Sys2Proof.Machine
end

