-- ==== Sys2Proof/Laws/Memory.lean ====
section
/-! SUPPORT. The laws of memory: a read after a write, the canonical form kept by every memory operation, and the two
runs of bytes. -/

namespace Sys2Proof.Machine

/-! ## One byte -/

/-- In a memory whose addresses rise, an address below the first reads as RESET left it. -/
theorem Memory.read_of_below (cfg : Config) (m : Memory) (a : Nat) (h : ∀ c ∈ m, a < c.1) :
    Memory.read cfg m a = cfg.resetByte a := by
  induction m with
  | nil => rfl
  | cons p m ih =>
    have hp : a < p.1 := h p (by simp)
    have hne : a ≠ p.1 := by omega
    simp only [Memory.read, hne, if_false]
    exact ih fun c hc => h c (by simp [hc])

/-- A read after a write: the byte written at its address, every other byte as before. -/
theorem Memory.read_write (cfg : Config) (m : Memory) (hm : m.Pairwise fun p q => p.1 < q.1) (a b : Nat) (v : Byte) :
    Memory.read cfg (Memory.write cfg m a v) b = if b = a then v else Memory.read cfg m b := by
  induction m with
  | nil =>
    simp only [Memory.write]
    split <;> by_cases hb : b = a <;> simp_all [Memory.read]
  | cons p m ih =>
    obtain ⟨k, w⟩ := p
    obtain ⟨hk, hm'⟩ := List.pairwise_cons.1 hm
    have ih := ih hm'
    simp only [Memory.write]
    split
    case isTrue hlt =>
      split
      case isTrue hv =>
        by_cases hb : b = a
        · subst hb
          have : Memory.read cfg ((k, w) :: m) b = cfg.resetByte b :=
            Memory.read_of_below cfg _ b (by
              intro c hc
              rcases List.mem_cons.1 hc with rfl | hc
              · exact hlt
              · exact Nat.lt_trans hlt (hk c hc))
          simp [this, hv]
        · simp [hb]
      case isFalse => simp [Memory.read]
    case isFalse hlt =>
      split
      case isTrue heq =>
        subst heq
        split
        case isTrue hv =>
          by_cases hb : b = a
          · subst hb
            rw [Memory.read_of_below cfg m b hk]
            simp [hv]
          · simp [Memory.read, hb]
        case isFalse =>
          by_cases hb : b = a <;> simp [Memory.read, hb]
      case isFalse hne =>
        by_cases hb : b = k
        · have hba : b ≠ a := by omega
          simp [Memory.read, hb]
          intro h; omega
        · simp [Memory.read, hb, ih]

/-- What a write lists: the cells of before at other addresses, and the written cell unless it is as RESET left it. -/
theorem Memory.mem_write {cfg : Config} {m : Memory} {a : Nat} {v : Byte} {c : Host.Cell}
    (h : c ∈ Memory.write cfg m a v) : c ∈ m ∨ (c = (a, v) ∧ v ≠ cfg.resetByte a) := by
  induction m with
  | nil => simp only [Memory.write] at h; split at h <;> simp_all
  | cons p m ih =>
    simp only [Memory.write] at h
    split at h
    · split at h <;> simp_all
      rcases h with rfl | h | h <;> simp_all
    · split at h
      · split at h <;> simp_all
        rcases h with rfl | h <;> simp_all
      · rcases List.mem_cons.1 h with rfl | h
        · simp
        · rcases ih h with h | h <;> simp [h]

/-- A write keeps the canonical form. -/
theorem Memory.wf_write {cfg : Config} {m : Memory} (h : Memory.wf cfg m) {a : Nat} (ha : a < memSize) (v : Byte) :
    Memory.wf cfg (Memory.write cfg m a v) := by
  obtain ⟨hp, hc⟩ := h
  refine ⟨?_, ?_⟩
  · clear hc
    induction m with
    | nil => simp only [Memory.write]; split <;> simp
    | cons p m ih =>
      obtain ⟨hk, hm⟩ := List.pairwise_cons.1 hp
      simp only [Memory.write]
      split
      case isTrue hlt =>
        split
        · exact hp
        · refine List.pairwise_cons.2 ⟨?_, hp⟩
          intro c hc
          rcases List.mem_cons.1 hc with rfl | hc
          · exact hlt
          · exact Nat.lt_trans hlt (hk c hc)
      case isFalse hlt =>
        split
        case isTrue heq =>
          subst heq
          split
          · exact hm
          · exact List.pairwise_cons.2 ⟨hk, hm⟩
        case isFalse hne =>
          refine List.pairwise_cons.2 ⟨?_, ih hm⟩
          intro c hc
          rcases Memory.mem_write hc with hc | ⟨rfl, -⟩
          · exact hk c hc
          · show p.1 < a; omega
  · intro c hcm
    rcases Memory.mem_write hcm with hcm | ⟨rfl, hv⟩
    · exact hc c hcm
    · exact ⟨ha, hv⟩

/-- Equal memories are equal data: two canonical memories in which every byte reads the same are the same list. -/
theorem Memory.ext_of_wf {cfg : Config} {m n : Memory} (hm : Memory.wf cfg m) (hn : Memory.wf cfg n)
    (h : ∀ a, Memory.read cfg m a = Memory.read cfg n a) : m = n := by
  induction m generalizing n with
  | nil =>
    cases n with
    | nil => rfl
    | cons q n =>
      have := h q.1
      simp [Memory.read] at this
      exact absurd this.symm (hn.2 q (by simp)).2
  | cons p m ih =>
    obtain ⟨hp, hm'⟩ := List.pairwise_cons.1 hm.1
    cases n with
    | nil =>
      have := h p.1
      simp [Memory.read] at this
      exact absurd this (hm.2 p (by simp)).2
    | cons q n =>
      obtain ⟨hq, hn'⟩ := List.pairwise_cons.1 hn.1
      have hk : p.1 = q.1 := by
        rcases Nat.lt_trichotomy p.1 q.1 with hlt | heq | hgt
        · have := h p.1
          rw [Memory.read_of_below cfg (q :: n) p.1 (by
            intro c hc
            rcases List.mem_cons.1 hc with rfl | hc
            · exact hlt
            · exact Nat.lt_trans hlt (hq c hc))] at this
          simp [Memory.read] at this
          exact absurd this (hm.2 p (by simp)).2
        · exact heq
        · have := h q.1
          rw [Memory.read_of_below cfg (p :: m) q.1 (by
            intro c hc
            rcases List.mem_cons.1 hc with rfl | hc
            · exact hgt
            · exact Nat.lt_trans hgt (hp c hc))] at this
          simp [Memory.read] at this
          exact absurd this.symm (hn.2 q (by simp)).2
      have hv : p.2 = q.2 := by
        have := h p.1
        simpa [Memory.read, hk] using this
      have hpq : p = q := Prod.ext hk hv
      subst hpq
      congr 1
      refine ih ⟨hm', fun c hc => hm.2 c (by simp [hc])⟩ ⟨hn', fun c hc => hn.2 c (by simp [hc])⟩ ?_
      intro a
      by_cases ha : a = p.1
      · subst ha
        rw [Memory.read_of_below cfg m _ hp, Memory.read_of_below cfg n _ hq]
      · have := h a
        simpa [Memory.read, ha] using this

/-! ## State reads and writes -/

/-- The memory of the state is canonical. -/
abbrev State.memWf (s : State) : Prop := Memory.wf s.cfg s.mem

theorem State.readByte_writeByte {s : State} (h : s.memWf) (a b : Nat) (v : Byte) :
    (s.writeByte a v).readByte b = if b = a then v else s.readByte b := by
  simp [State.readByte, Memory.read_write _ _ h.1]

theorem State.memWf_writeByte {s : State} (h : s.memWf) {a : Nat} (ha : a < memSize) (v : Byte) :
    (s.writeByte a v).memWf := by
  simpa [State.memWf] using Memory.wf_write h ha v

theorem State.memWf_writeBytes {s : State} (h : s.memWf) (base : Nat) (bs : List Byte)
    (hb : base + bs.length ≤ memSize) : (s.writeBytes base bs).memWf := by
  induction bs generalizing s base with
  | nil => exact h
  | cons b bs ih =>
    simp only [List.length_cons] at hb
    exact ih (State.memWf_writeByte h (by omega) b) (base + 1) (by omega)

/-- Everything `writeBytes` does: byte `k` of the run lands at `base + k`, and every other byte is as before. -/
theorem State.readByte_writeBytes {s : State} (h : s.memWf) (base : Nat) (bs : List Byte)
    (hb : base + bs.length ≤ memSize) (a : Nat) :
    (s.writeBytes base bs).readByte a =
      if hk : base ≤ a ∧ a - base < bs.length then bs[a - base]'hk.2 else s.readByte a := by
  induction bs generalizing s base with
  | nil => simp [State.writeBytes]
  | cons b bs ih =>
    simp only [List.length_cons] at hb
    simp only [State.writeBytes]
    rw [ih (State.memWf_writeByte h (by omega) b) (base + 1) (by omega), State.readByte_writeByte h]
    by_cases h1 : a = base
    · subst h1
      rw [dif_neg (by omega)]
      simp
    · by_cases h2 : base + 1 ≤ a ∧ a - (base + 1) < bs.length
      · have e : a - base = (a - (base + 1)) + 1 := by omega
        rw [dif_pos h2, dif_pos (by simp only [List.length_cons]; omega)]
        simp [e]
      · rw [dif_neg h2, if_neg h1, dif_neg (by simp only [List.length_cons]; omega)]

/-- Outside the run nothing changes. -/
theorem State.readByte_writeBytes_outside {s : State} (h : s.memWf) (base : Nat) (bs : List Byte)
    (hb : base + bs.length ≤ memSize) (a : Nat) (ha : a < base ∨ base + bs.length ≤ a) :
    (s.writeBytes base bs).readByte a = s.readByte a := by
  rw [State.readByte_writeBytes h base bs hb, dif_neg (by omega)]

/-- Byte `k` of the run. -/
theorem State.readByte_writeBytes_at {s : State} (h : s.memWf) (base : Nat) (bs : List Byte)
    (hb : base + bs.length ≤ memSize) (k : Nat) (hk : k < bs.length) :
    (s.writeBytes base bs).readByte (base + k) = bs[k] := by
  rw [State.readByte_writeBytes h base bs hb, dif_pos (by omega)]
  simp

@[simp] theorem State.readBytes_length (s : State) (base count : Nat) : (s.readBytes base count).length = count := by
  simp [State.readBytes]

@[simp] theorem State.readBytes_getElem (s : State) (base count k : Nat) (h : k < (s.readBytes base count).length) :
    (s.readBytes base count)[k] = s.readByte (base + k) := by
  simp [State.readBytes]

end Sys2Proof.Machine
end

