-- ==== Sys2Proof/Laws/Ops.lean ====
section
/-! SUPPORT. What each shared operation can do, said once. -/

namespace Sys2Proof.Machine

/-! ## The bounds check -/

/-- The check passes exactly when no byte is accessed or the last one is below 4096. -/
theorem firstOutside_eq_none {base count : Nat} :
    firstOutside base count = none ↔ count = 0 ∨ base + count ≤ memSize := by
  unfold firstOutside
  split
  · simp [*]
  · split <;> simp <;> omega

/-- The check fails exactly when some address of the access is 4096 or more, and answers the lowest such address. -/
theorem firstOutside_eq_some {base count a : Nat} :
    firstOutside base count = some a ↔ 0 < count ∧ memSize < base + count ∧ a = max base memSize := by
  unfold firstOutside
  split
  · simp; omega
  · split
    · simp only [Option.some.injEq]; omega
    · simp; omega

/-- An access whose last byte is below 4096 goes ahead. -/
theorem State.withAccess_of_le {s : State} {count : Nat} (h : count = 0 ∨ s.i.toNat + count ≤ memSize) (r : Result) :
    s.withAccess count r = r := by
  simp [State.withAccess, firstOutside_eq_none.2 h]

/-- An access that reaches 4096 faults with the lowest address outside. -/
theorem State.withAccess_of_gt {s : State} {count : Nat} (h0 : 0 < count) (h : memSize < s.i.toNat + count)
    (r : Result) : s.withAccess count r = .fault (.memoryOutOfBounds s.pc (max s.i.toNat memSize)) := by
  simp [State.withAccess, firstOutside_eq_some.2 ⟨h0, h, rfl⟩, raise]

/-- Inversion: a checked access that answers a next state passed its check. -/
theorem State.withAccess_eq_next {s t : State} {count : Nat} {r : Result} (h : s.withAccess count r = .next t) :
    (count = 0 ∨ s.i.toNat + count ≤ memSize) ∧ r = .next t := by
  unfold State.withAccess at h
  split at h
  · simp [raise] at h
  · exact ⟨firstOutside_eq_none.1 (by assumption), h⟩

/-- Inversion: a checked access of a completing instruction faults only by its check. -/
theorem State.withAccess_next_eq_fault {s t : State} {count : Nat} {f : Fault}
    (h : s.withAccess count (.next t) = .fault f) :
    0 < count ∧ memSize < s.i.toNat + count ∧ f = .memoryOutOfBounds s.pc (max s.i.toNat memSize) := by
  unfold State.withAccess at h
  split at h
  · rename_i a ha
    obtain ⟨h1, h2, rfl⟩ := firstOutside_eq_some.1 ha
    simp [raise] at h
    exact ⟨h1, h2, h.symm⟩
  · simp at h

/-! ## The call stack -/

theorem State.push_full {s : State} (h : s.sp.val = 16) (w : Word) : s.push w = none := by
  simp [State.push, h]

theorem State.push_room {s : State} (h : s.sp.val < 16) (w : Word) :
    s.push w = some { s with stack := s.stack.set s.sp.val w, sp := ⟨s.sp.val + 1, by omega⟩ } := by
  simp [State.push, h]

theorem State.pop_empty {s : State} (h : s.sp.val = 0) : s.pop = none := by
  simp [State.pop, h]

theorem State.pop_live {s : State} (h : 0 < s.sp.val) :
    s.pop = some (s.stack[s.sp.val - 1], { s with sp := ⟨s.sp.val - 1, by omega⟩ }) := by
  simp [State.pop, h]

/-! ## The keypad -/

theorem keyNumber_eq_some {a : Byte} {k : Fin 16} : keyNumber a = some k ↔ a.toNat = k.val := by
  unfold keyNumber
  split
  · constructor
    · intro h; simp at h; simp [← h]
    · intro h; simp [h]
  · simp; omega

theorem keyNumber_eq_none {a : Byte} : keyNumber a = none ↔ 15 < a.toNat := by
  unfold keyNumber
  split <;> simp <;> omega

/-- No key is reported exactly when none is pressed. -/
theorem lowestKey_eq_none {keys : Vector Bool 16} : lowestKey keys = none ↔ ∀ k : Fin 16, keys[k] = false := by
  simp [lowestKey, List.find?_eq_none]

/-- The reported key is pressed and no lower one is. -/
theorem lowestKey_eq_some {keys : Vector Bool 16} {k : Fin 16} :
    lowestKey keys = some k ↔ keys[k] = true ∧ ∀ j : Fin 16, j < k → keys[j] = false := by
  unfold lowestKey
  rw [List.find?_eq_some_iff_getElem]
  constructor
  · rintro ⟨hk, i, hi, hik, hlow⟩
    simp only [List.length_finRange] at hi
    simp only [List.getElem_finRange] at hik
    refine ⟨by simpa using hk, fun j hj => ?_⟩
    have := hlow j.val (by rw [← hik] at hj; exact hj)
    simpa using this
  · rintro ⟨hk, hlow⟩
    refine ⟨by simpa using hk, k.val, by simp, by simp, fun j hj => ?_⟩
    have := hlow ⟨j, by omega⟩ hj
    simpa using this

/-! ## The registers that the transfers move -/

@[simp] theorem State.regsTo_length (s : State) (x : Reg) : (s.regsTo x).length = x.val + 1 := by
  simp [State.regsTo]

@[simp] theorem State.regsTo_getElem (s : State) (x : Reg) (k : Nat) (h : k < (s.regsTo x).length) :
    (s.regsTo x)[k] = s.readV ⟨k, by simp at h; omega⟩ := by
  simp [State.regsTo, State.readV]

@[simp] theorem State.loadRegsFrom_getElem (s : State) (x k : Reg) :
    (s.loadRegsFrom x)[k] = if k ≤ x then s.readByte (s.i.toNat + k.val) else s.readV k := by
  simp only [State.loadRegsFrom, State.addrI, State.readV, Fin.getElem_fin, Vector.getElem_ofFn]
  rfl

@[simp] theorem bcdDigits_length (a : Byte) : (bcdDigits a).length = 3 := rfl

/-! ## The random byte -/

theorem State.drawRnd_supplied {s : State} {b : Byte} {rest : List Byte} (h : s.rndIn = b :: rest) :
    s.drawRnd = (b, { s with rndIn := rest }) := by
  simp [State.drawRnd, h]

theorem State.drawRnd_free {s : State} (h : s.rndIn = []) :
    s.drawRnd = (Config.freeRnd s.draws, { s with draws := s.draws + 1 }) := by
  simp [State.drawRnd, h]

/-! ## Arithmetic -/

theorem sum8_toNat (a b : Byte) : (sum8 a b).toNat = (a.toNat + b.toNat) % 256 := by
  simp [sum8]

theorem diff8_toNat (a b : Byte) : (diff8 a b).toNat = (a.toNat + 256 - b.toNat) % 256 := by
  simp [diff8]

theorem flagByte_toNat (b : Bool) : (flagByte b).toNat = if b then 1 else 0 := by
  cases b <;> rfl

theorem zextNNN_toNat (nnn : BitVec 12) : (zextNNN nnn).toNat = nnn.toNat := by
  simp [zextNNN]; omega

theorem zextByte_toNat (b : Byte) : (zextByte b).toNat = b.toNat := by
  simp [zextByte]; omega

end Sys2Proof.Machine
end

