-- ==== Sys2Proof/Laws/Display.lean ====
section
/-! SUPPORT. The compositor (44_display.md R191, R192): one cell, one pixel, one row, the whole sprite. -/

namespace Sys2Proof.Machine

/-! ## Cells -/

theorem Display.cell_toggle (d : Display) (x x' : Fin 64) (y y' : Fin 32) :
    (d.toggle x y).cell x' y' = (d.cell x' y' ^^ (decide (x' = x) && decide (y' = y))) := by
  by_cases hy : y' = y
  · subst hy
    by_cases hx : x' = x
    · subst hx; simp [Display.toggle, Display.cell]
    · have : x.val ≠ x'.val := fun e => hx (Fin.ext e.symm)
      simp [Display.toggle, Display.cell, hx, this]
  · have : y.val ≠ y'.val := fun e => hy (Fin.ext e.symm)
    simp [Display.toggle, Display.cell, hy, this]

@[simp] theorem Display.cell_blank (x : Fin 64) (y : Fin 32) : Display.blank.cell x y = false := by
  simp [Display.blank, Display.cell]

/-- Two displays with the same cells are the same. -/
theorem Display.ext_cell {d e : Display} (h : ∀ x y, d.cell x y = e.cell x y) : d = e := by
  apply Vector.ext
  intro y hy
  apply Vector.ext
  intro x hx
  exact h ⟨x, hx⟩ ⟨y, hy⟩

/-! ## Wrapped coordinates -/

theorem wrapX_val (px col : Nat) : (wrapX px col).val = (px + col) % 64 := rfl

theorem wrapY_val (py row : Nat) : (wrapY py row).val = (py + row) % 32 := rfl

/-- The eight columns of a sprite are eight different columns (R191 d). -/
theorem wrapX_injective {px c c' : Nat} (hc : c < 64) (hc' : c' < 64) (h : wrapX px c = wrapX px c') : c = c' := by
  have := congrArg Fin.val h
  simp only [wrapX_val] at this
  omega

/-- The rows of a sprite are different rows (R191 d). -/
theorem wrapY_injective {py r r' : Nat} (hr : r < 32) (hr' : r' < 32) (h : wrapY py r = wrapY py r') : r = r' := by
  have := congrArg Fin.val h
  simp only [wrapY_val] at this
  omega

/-! ## One row -/

/-- Some column of the list has a set bit that lies on column `cx`. -/
def rowCovers (b : Byte) (px : Nat) (cols : List Nat) (cx : Fin 64) : Bool :=
  cols.any fun col => spriteBit b col && decide (cx = wrapX px col)

/-- What drawing some columns of a row does to a cell and to the collision. -/
theorem drawPixels_spec (b : Byte) (px py row : Nat) (cols : List Nat) (hnd : cols.Nodup) (hlt : ∀ c ∈ cols, c < 64)
    (acc : Display × Bool) :
    (∀ cx cy, (cols.foldl (drawPixel b px py row) acc).1.cell cx cy =
      (acc.1.cell cx cy ^^ (rowCovers b px cols cx && decide (cy = wrapY py row)))) ∧
    (cols.foldl (drawPixel b px py row) acc).2 =
      (acc.2 || cols.any fun col => spriteBit b col && acc.1.cell (wrapX px col) (wrapY py row)) := by
  induction cols generalizing acc with
  | nil => simp [rowCovers]
  | cons c cs ih =>
    obtain ⟨hc, hnd⟩ := List.nodup_cons.1 hnd
    have hcs : ∀ k ∈ cs, k < 64 := fun k hk => hlt k (by simp [hk])
    have hc64 : c < 64 := hlt c (by simp)
    have hne : ∀ k ∈ cs, wrapX px k ≠ wrapX px c := fun k hk e =>
      hc (wrapX_injective (hcs k hk) hc64 e ▸ hk)
    obtain ⟨ihc, ihk⟩ := ih hnd hcs (drawPixel b px py row acc c)
    simp only [List.foldl_cons]
    by_cases hb : spriteBit b c = true
    · have hp : drawPixel b px py row acc c = (acc.1.toggle (wrapX px c) (wrapY py row),
          acc.2 || acc.1.cell (wrapX px c) (wrapY py row)) := by simp [drawPixel, hb]
      refine ⟨fun cx cy => ?_, ?_⟩
      · rw [ihc, hp]
        simp only [Display.cell_toggle, rowCovers, List.any_cons, hb, Bool.true_and]
        by_cases hx : cx = wrapX px c
        · have : (cs.any fun col => spriteBit b col && decide (cx = wrapX px col)) = false := by
            rw [List.any_eq_false]
            intro k hk
            have := hne k hk
            simp only [hx, Bool.and_eq_true, decide_eq_true_eq, not_and]
            intro _ e; exact this e.symm
          simp [this, decide_eq_true hx]
        · simp [hx]
      · rw [ihk, hp]
        have : ∀ k ∈ cs, (spriteBit b k && (acc.1.toggle (wrapX px c) (wrapY py row)).cell (wrapX px k) (wrapY py row))
            = (spriteBit b k && acc.1.cell (wrapX px k) (wrapY py row)) := by
          intro k hk
          simp [Display.cell_toggle, hne k hk]
        have hany : (cs.any fun col => spriteBit b col &&
              (acc.1.toggle (wrapX px c) (wrapY py row)).cell (wrapX px col) (wrapY py row))
            = cs.any fun col => spriteBit b col && acc.1.cell (wrapX px col) (wrapY py row) := by
          rw [Bool.eq_iff_iff, List.any_eq_true, List.any_eq_true]
          constructor <;> rintro ⟨k, hk, h⟩ <;> exact ⟨k, hk, by simpa [this k hk] using h⟩
        simp [hany, hb, Bool.or_assoc]
    · have hb' : spriteBit b c = false := by simpa using hb
      have hp : drawPixel b px py row acc c = acc := by simp [drawPixel, hb']
      refine ⟨fun cx cy => ?_, ?_⟩
      · rw [ihc, hp]; simp [rowCovers, hb']
      · rw [ihk, hp]; simp [hb']

/-- Everything a sprite row does. -/
theorem drawRow_spec (b : Byte) (px py row : Nat) (acc : Display × Bool) :
    (∀ cx cy, (drawRow b px py row acc).1.cell cx cy =
      (acc.1.cell cx cy ^^ (rowCovers b px (List.range 8) cx && decide (cy = wrapY py row)))) ∧
    (drawRow b px py row acc).2 =
      (acc.2 || (List.range 8).any fun col => spriteBit b col && acc.1.cell (wrapX px col) (wrapY py row)) :=
  drawPixels_spec b px py row (List.range 8) List.nodup_range (fun c hc => by simp at hc; omega) acc

/-! ## The sprite -/

/-- Row number `row0 + r` of the sprite covers the cell, for some row `r` of the list. -/
def underRows (rows : List Byte) (row0 px py : Nat) (cx : Fin 64) (cy : Fin 32) : Prop :=
  ∃ r, ∃ h : r < rows.length, rowCovers rows[r] px (List.range 8) cx = true ∧ cy = wrapY py (row0 + r)

theorem underRows_cons {b : Byte} {bs : List Byte} {row0 px py : Nat} {cx : Fin 64} {cy : Fin 32} :
    underRows (b :: bs) row0 px py cx cy ↔
      (rowCovers b px (List.range 8) cx = true ∧ cy = wrapY py row0) ∨ underRows bs (row0 + 1) px py cx cy := by
  constructor
  · rintro ⟨r, h, hc, hy⟩
    cases r with
    | zero => exact .inl ⟨hc, hy⟩
    | succ r => exact .inr ⟨r, by simpa using h, hc, by rw [hy]; congr 1; omega⟩
  · rintro (⟨hc, hy⟩ | ⟨r, h, hc, hy⟩)
    · exact ⟨0, by simp, hc, hy⟩
    · exact ⟨r + 1, by simpa using h, hc, by rw [hy]; congr 1; omega⟩

/-- Everything a run of sprite rows does: a covered cell is toggled, every other cell keeps its value, and there is a
collision exactly when there was one before or some covered cell was 1. -/
theorem drawRows_spec (px py : Nat) (rows : List Byte) (row0 : Nat) (hlen : row0 + rows.length ≤ 32)
    (acc : Display × Bool) :
    (∀ cx cy, (underRows rows row0 px py cx cy →
        (drawRows px py rows row0 acc).1.cell cx cy = !acc.1.cell cx cy) ∧
      (¬ underRows rows row0 px py cx cy →
        (drawRows px py rows row0 acc).1.cell cx cy = acc.1.cell cx cy)) ∧
    ((drawRows px py rows row0 acc).2 = true ↔
      acc.2 = true ∨ ∃ cx cy, underRows rows row0 px py cx cy ∧ acc.1.cell cx cy = true) := by
  induction rows generalizing row0 acc with
  | nil => simp [drawRows, underRows]
  | cons b bs ih =>
    simp only [List.length_cons] at hlen
    obtain ⟨ihc, ihk⟩ := ih (row0 + 1) (by omega) (drawRow b px py row0 acc)
    obtain ⟨hrc, hrk⟩ := drawRow_spec b px py row0 acc
    have hdisj : ∀ cx cy, underRows bs (row0 + 1) px py cx cy → cy ≠ wrapY py row0 := by
      rintro cx cy ⟨r, hr, -, rfl⟩ e
      have := wrapY_injective (by omega) (by omega) e
      omega
    simp only [drawRows]
    refine ⟨fun cx cy => ⟨fun h => ?_, fun h => ?_⟩, ?_⟩
    · rcases underRows_cons.1 h with ⟨hc, hy⟩ | h'
      · have hn : ¬ underRows bs (row0 + 1) px py cx cy := fun h' => hdisj cx cy h' hy
        rw [(ihc cx cy).2 hn, hrc]
        simp [hc, hy]
      · rw [(ihc cx cy).1 h', hrc]
        simp [hdisj cx cy h']
    · have h1 : ¬ underRows bs (row0 + 1) px py cx cy := fun h' => h (underRows_cons.2 (.inr h'))
      rw [(ihc cx cy).2 h1, hrc]
      by_cases hy : cy = wrapY py row0
      · have : rowCovers b px (List.range 8) cx = false := by
          by_contra hc
          exact h (underRows_cons.2 (.inl ⟨by simpa using hc, hy⟩))
        simp [this]
      · simp [hy]
    · rw [ihk, hrk]
      simp only [Bool.or_eq_true, List.any_eq_true, Bool.and_eq_true]
      constructor
      · rintro ((h | ⟨col, hcol, hb, hcell⟩) | ⟨cx, cy, hu, hcell⟩)
        · exact .inl h
        · refine .inr ⟨_, _, underRows_cons.2 (.inl ⟨?_, rfl⟩), hcell⟩
          simp only [rowCovers, List.any_eq_true, Bool.and_eq_true, decide_eq_true_eq]
          exact ⟨col, hcol, hb, rfl⟩
        · rw [hrc] at hcell
          simp only [hdisj cx cy hu, decide_false, Bool.and_false, Bool.xor_false] at hcell
          exact .inr ⟨cx, cy, underRows_cons.2 (.inr hu), hcell⟩
      · rintro (h | ⟨cx, cy, hu, hcell⟩)
        · exact .inl (.inl h)
        · rcases underRows_cons.1 hu with ⟨hc, rfl⟩ | hu
          · simp only [rowCovers, List.any_eq_true, Bool.and_eq_true, decide_eq_true_eq] at hc
            obtain ⟨col, hcol, hb, rfl⟩ := hc
            exact .inl (.inr ⟨col, hcol, hb, hcell⟩)
          · refine .inr ⟨cx, cy, hu, ?_⟩
            rw [hrc]
            simpa [hdisj cx cy hu] using hcell

/-- The rows from number 0 on are the sprite. -/
theorem underRows_zero {sprite : List Byte} {px py : Nat} {cx : Fin 64} {cy : Fin 32} :
    underRows sprite 0 px py cx cy ↔ underSprite sprite px py cx cy := by
  simp only [underRows, underSprite, rowCovers, List.any_eq_true, Bool.and_eq_true, decide_eq_true_eq, List.mem_range,
    Fin.ext_iff, wrapX_val, wrapY_val, Nat.zero_add]
  constructor
  · rintro ⟨row, h, ⟨col, hcol, hb, hx⟩, hy⟩
    exact ⟨row, col, h, hcol, hb, hx, hy⟩
  · rintro ⟨row, col, h, hcol, hb, hx, hy⟩
    exact ⟨row, h, ⟨col, hcol, hb, hx⟩, hy⟩

/-- A cell under a set sprite bit is toggled. -/
theorem drawSprite_under (d : Display) (px py : Nat) {sprite : List Byte} (hlen : sprite.length ≤ 32) {cx : Fin 64}
    {cy : Fin 32} (h : underSprite sprite px py cx cy) :
    (drawSprite d px py sprite).1.cell cx cy = !d.cell cx cy :=
  ((drawRows_spec px py sprite 0 (by omega) (d, false)).1 cx cy).1 (underRows_zero.2 h)

/-- A cell under no set sprite bit keeps its value. -/
theorem drawSprite_outside (d : Display) (px py : Nat) {sprite : List Byte} (hlen : sprite.length ≤ 32) {cx : Fin 64}
    {cy : Fin 32} (h : ¬ underSprite sprite px py cx cy) :
    (drawSprite d px py sprite).1.cell cx cy = d.cell cx cy :=
  ((drawRows_spec px py sprite 0 (by omega) (d, false)).1 cx cy).2 fun h' => h (underRows_zero.1 h')

/-- There is a collision exactly when some cell under a set sprite bit was 1. -/
theorem drawSprite_collision (d : Display) (px py : Nat) {sprite : List Byte} (hlen : sprite.length ≤ 32) :
    (drawSprite d px py sprite).2 = true ↔ ∃ cx cy, underSprite sprite px py cx cy ∧ d.cell cx cy = true := by
  have := (drawRows_spec px py sprite 0 (by omega) (d, false)).2
  simpa [drawSprite, underRows_zero] using this

end Sys2Proof.Machine
end

