-- ==== Sys2Proof/Laws/Exec.lean ====
section
/-! SUPPORT. What `exec` answers for the instructions that have more than one outcome, each outcome said once; for every
other instruction its meaning is one `next`, by definition. -/

namespace Sys2Proof.Machine

theorem exec_ret_empty {s : State} (h : s.sp.val = 0) : exec .ret s = .fault (.stackUnderflow s.pc) := by
  simp [exec, execRet, State.pop_empty h, raise]

theorem exec_ret_live {s : State} (h : 0 < s.sp.val) :
    exec .ret s = .next { s with sp := ⟨s.sp.val - 1, by omega⟩, pc := s.stack[s.sp.val - 1] } := by
  simp [exec, execRet, State.pop_live h, State.setPc]

theorem exec_call_full {nnn : BitVec 12} {s : State} (h : s.sp.val = 16) :
    exec (.call nnn) s = .fault (.stackOverflow s.pc) := by
  simp [exec, execCall, State.push_full h, raise]

theorem exec_call_room {nnn : BitVec 12} {s : State} (h : s.sp.val < 16) :
    exec (.call nnn) s = .next { s with
      stack := s.stack.set s.sp.val (s.pc + 2), sp := ⟨s.sp.val + 1, by omega⟩, pc := zextNNN nnn } := by
  simp [exec, execCall, State.push_room h, State.setPc]

/-- The key test on a byte that is no key number. -/
theorem State.keySkip_outOfRange {s : State} {x : Reg} (h : 15 < (s.readV x).toNat) (level : Bool) :
    s.keySkip x level = .fault (.keyIndexOutOfRange s.pc (s.readV x)) := by
  simp [State.keySkip, keyNumber_eq_none.2 h, raise]

/-- The key test on a key number. -/
theorem State.keySkip_key {s : State} {x : Reg} {k : Fin 16} (h : (s.readV x).toNat = k.val) (level : Bool) :
    s.keySkip x level = .next (s.skipIf (s.keys[k] == level)) := by
  simp [State.keySkip, keyNumber_eq_some.2 h]

/-- The key test has these two outcomes and no other. -/
theorem State.keySkip_cases (s : State) (x : Reg) (level : Bool) :
    (15 < (s.readV x).toNat ∧ s.keySkip x level = .fault (.keyIndexOutOfRange s.pc (s.readV x))) ∨
    ∃ c, s.keySkip x level = .next (s.skipIf c) := by
  by_cases h : 15 < (s.readV x).toNat
  · exact .inl ⟨h, State.keySkip_outOfRange h level⟩
  · exact .inr ⟨_, State.keySkip_key (k := ⟨(s.readV x).toNat, by omega⟩) rfl level⟩

theorem exec_ldVxKey_none {s : State} (x : Reg) (h : ∀ k : Fin 16, s.keys[k] = false) :
    exec (.ldVxKey x) s = .next s := by
  simp [exec, execLdVxKey, lowestKey_eq_none.2 h]

theorem exec_ldVxKey_some {s : State} (x : Reg) {k : Fin 16} (hk : s.keys[k] = true)
    (hlow : ∀ j : Fin 16, j < k → s.keys[j] = false) :
    exec (.ldVxKey x) s = .next (s.writeV x (BitVec.ofNat 8 k.val)).advance := by
  simp [exec, execLdVxKey, lowestKey_eq_some.2 ⟨hk, hlow⟩]

/-- The key wait has these two outcomes and no other. -/
theorem exec_ldVxKey_cases (s : State) (x : Reg) :
    ((∀ k : Fin 16, s.keys[k] = false) ∧ exec (.ldVxKey x) s = .next s) ∨
    ∃ b, exec (.ldVxKey x) s = .next (s.writeV x b).advance := by
  cases h : lowestKey s.keys with
  | none => exact .inl ⟨lowestKey_eq_none.1 h, by simp [exec, execLdVxKey, h]⟩
  | some k => exact .inr ⟨_, by simp [exec, execLdVxKey, h]; rfl⟩

/-- `Cxkk` with a supplied byte. -/
theorem exec_rnd_supplied {s : State} (x : Reg) (kk : Byte) {b : Byte} {rest : List Byte} (h : s.rndIn = b :: rest) :
    exec (.rnd x kk) s = .next (({ s with rndIn := rest } : State).result x (b &&& kk)) := by
  simp [exec, execRnd, State.drawRnd_supplied h]

/-- `Cxkk` with a free byte. -/
theorem exec_rnd_free {s : State} (x : Reg) (kk : Byte) (h : s.rndIn = []) :
    exec (.rnd x kk) s =
      .next (({ s with draws := s.draws + 1 } : State).result x (Config.freeRnd s.draws &&& kk)) := by
  simp [exec, execRnd, State.drawRnd_free h]

/-! ## Every instruction -/

/-- No instruction is without a meaning. -/
theorem exec_not_refused (i : Instr) (s : State) (q : Refusal) : exec i s ≠ .refused q := by
  cases i <;> simp [exec, execRet, execCall, execSkp, execSknp, State.keySkip, execLdVxKey, execDrw, execLdBcd,
    execStoreRegs, execLoadRegs, State.withAccess, execCls, execJp, execSeImm, execSneImm, execSeReg, execSneReg, execLdImm, execAddImm,
    execLdReg, execOrReg, execAndReg, execXorReg, execAddReg, execSubReg, execShr, execSubnReg, execShl, execLdI,
    execJpV0, execLdVxDt, execLdDtVx, execLdStVx, execAddI, execLdFont, execRnd, raise]
  all_goals split <;> simp

/-- A run of stores does not look at the supply of random bytes. -/
theorem State.writeBytes_withRndIn (s : State) (l : List Byte) (b : Nat) (bs : List Byte) :
    ({ s with rndIn := l } : State).writeBytes b bs = { s.writeBytes b bs with rndIn := l } := by
  induction bs generalizing s b with
  | nil => rfl
  | cons c cs ih => exact ih (s.writeByte b c) (b+1)

/-- A skip does not look at the supply of random bytes. -/
theorem State.skipIf_withRndIn (s : State) (l : List Byte) (c : Bool) :
    ({ s with rndIn := l } : State).skipIf c = { s.skipIf c with rndIn := l } := by
  cases c <;> rfl

/-- Every instruction but `Cxkk` does the same whatever the supply of random bytes is, and leaves it. -/
theorem exec_withRndIn (i : Instr) (hi : ∀ x kk, i ≠ .rnd x kk) (s : State) (l : List Byte) :
    exec i { s with rndIn := l } = match exec i s with
      | .next t => .next { t with rndIn := l }
      | .fault f => .fault f
      | .refused q => .refused q := by
  cases i
  case rnd x kk => exact absurd rfl (hi x kk)
  case ret =>
    by_cases h : 0 < s.sp.val
    · rw [exec_ret_live h, exec_ret_live (by exact h)]
    · have h : s.sp.val = 0 := by omega
      rw [exec_ret_empty h, exec_ret_empty (by exact h)]
  case call nnn =>
    by_cases h : s.sp.val < 16
    · rw [exec_call_room h, exec_call_room (by exact h)]
    · have h : s.sp.val = 16 := by omega
      rw [exec_call_full h, exec_call_full (by exact h)]
  case skp x =>
    by_cases h : 15 < (s.readV x).toNat
    · exact (State.keySkip_outOfRange (by exact h) _).trans (by simp [exec, execSkp, State.keySkip_outOfRange h]; rfl)
    · refine (State.keySkip_key (k := ⟨(s.readV x).toNat, by omega⟩) (by rfl) _).trans ?_
      simp only [exec, execSkp, State.keySkip_key (k := ⟨(s.readV x).toNat, by omega⟩) rfl]
      exact congrArg Host.Outcome.next (s.skipIf_withRndIn l _)
  case sknp x =>
    by_cases h : 15 < (s.readV x).toNat
    · exact (State.keySkip_outOfRange (by exact h) _).trans (by simp [exec, execSknp, State.keySkip_outOfRange h]; rfl)
    · refine (State.keySkip_key (k := ⟨(s.readV x).toNat, by omega⟩) (by rfl) _).trans ?_
      simp only [exec, execSknp, State.keySkip_key (k := ⟨(s.readV x).toNat, by omega⟩) rfl]
      exact congrArg Host.Outcome.next (s.skipIf_withRndIn l _)
  case ldVxKey x =>
    simp only [exec, execLdVxKey]
    cases lowestKey s.keys <;> rfl
  case drw x y n =>
    simp only [exec, execDrw, State.withAccess]
    cases firstOutside s.i.toNat n <;> rfl
  case ldBcd x =>
    simp only [exec, execLdBcd, State.withAccess]
    cases firstOutside s.i.toNat 3
    · simp only [State.writeBytes_withRndIn]; rfl
    · rfl
  case storeRegs x =>
    simp only [exec, execStoreRegs, State.withAccess]
    cases firstOutside s.i.toNat (x.val + 1)
    · simp only [State.writeBytes_withRndIn]; rfl
    · rfl
  case loadRegs x =>
    simp only [exec, execLoadRegs, State.withAccess]
    cases firstOutside s.i.toNat (x.val + 1) <;> rfl
  case seImm x kk => exact congrArg Host.Outcome.next (s.skipIf_withRndIn l _)
  case sneImm x kk => exact congrArg Host.Outcome.next (s.skipIf_withRndIn l _)
  case seReg x y => exact congrArg Host.Outcome.next (s.skipIf_withRndIn l _)
  case sneReg x y => exact congrArg Host.Outcome.next (s.skipIf_withRndIn l _)
  all_goals rfl

/-- Inversion: everything an instruction can fault with. -/
theorem exec_eq_fault {i : Instr} {s : State} {f : Fault} (h : exec i s = .fault f) :
    (i = .ret ∧ s.sp.val = 0 ∧ f = .stackUnderflow s.pc) ∨
    ((∃ nnn, i = .call nnn) ∧ s.sp.val = 16 ∧ f = .stackOverflow s.pc) ∨
    (∃ x, (i = .skp x ∨ i = .sknp x) ∧ 15 < (s.readV x).toNat ∧ f = .keyIndexOutOfRange s.pc (s.readV x)) ∨
    (((∃ x y n, i = .drw x y n ∧ 0 < n ∧ memSize < s.i.toNat + n) ∨ (∃ x, i = .ldBcd x ∧ memSize < s.i.toNat + 3) ∨
      (∃ x : Reg, (i = .storeRegs x ∨ i = .loadRegs x) ∧ memSize < s.i.toNat + (x.val + 1))) ∧
      f = .memoryOutOfBounds s.pc (max s.i.toNat memSize)) := by
  cases i
  case ret =>
    by_cases hs : 0 < s.sp.val
    · rw [exec_ret_live hs] at h; cases h
    · have hs : s.sp.val = 0 := by omega
      rw [exec_ret_empty hs] at h; cases h; exact .inl ⟨rfl, hs, rfl⟩
  case call nnn =>
    by_cases hs : s.sp.val < 16
    · rw [exec_call_room hs] at h; cases h
    · have hs : s.sp.val = 16 := by omega
      rw [exec_call_full hs] at h; cases h; exact .inr (.inl ⟨⟨_, rfl⟩, hs, rfl⟩)
  case skp x =>
    rcases State.keySkip_cases s x true with ⟨hx, hk⟩ | ⟨c, hk⟩ <;> simp only [exec, execSkp, hk] at h <;> cases h
    exact .inr (.inr (.inl ⟨x, .inl rfl, hx, rfl⟩))
  case sknp x =>
    rcases State.keySkip_cases s x false with ⟨hx, hk⟩ | ⟨c, hk⟩ <;> simp only [exec, execSknp, hk] at h <;> cases h
    exact .inr (.inr (.inl ⟨x, .inr rfl, hx, rfl⟩))
  case ldVxKey x =>
    rcases exec_ldVxKey_cases s x with ⟨-, hk⟩ | ⟨b, hk⟩ <;> rw [hk] at h <;> cases h
  case drw x y n =>
    obtain ⟨h0, h1, hf⟩ := State.withAccess_next_eq_fault h
    exact .inr (.inr (.inr ⟨.inl ⟨x, y, n, rfl, h0, h1⟩, hf⟩))
  case ldBcd x =>
    obtain ⟨-, h1, hf⟩ := State.withAccess_next_eq_fault h
    exact .inr (.inr (.inr ⟨.inr (.inl ⟨x, rfl, h1⟩), hf⟩))
  case storeRegs x =>
    obtain ⟨-, h1, hf⟩ := State.withAccess_next_eq_fault h
    exact .inr (.inr (.inr ⟨.inr (.inr ⟨x, .inl rfl, h1⟩), hf⟩))
  case loadRegs x =>
    obtain ⟨-, h1, hf⟩ := State.withAccess_next_eq_fault h
    exact .inr (.inr (.inr ⟨.inr (.inr ⟨x, .inr rfl, h1⟩), hf⟩))
  all_goals cases h

end Sys2Proof.Machine
end

