-- ==== Sys2Proof/Laws/PerInstr.lean ====
section
/-! SUPPORT. The laws stated per instruction. Family DecodeEncode: a well-formed instruction's word decodes to it
(30_encoding.md R84, R90). -/

namespace Sys2Proof.Laws.DecodeEncode

/-- The word of a well-formed instruction decodes to that instruction, with every operand. -/
def Statement (i : Instr) : Prop := i.wf = true → decode (encode i) = .ok i

theorem cls : Statement .cls := fun _ => by rfl

theorem ret : Statement .ret := fun _ => by rfl

theorem jp (nnn : BitVec 12) : Statement (.jp nnn) := fun _ => by simp [encode, decode]

theorem call (nnn : BitVec 12) : Statement (.call nnn) := fun _ => by simp [encode, decode]

theorem seImm (x : Reg) (kk : Byte) : Statement (.seImm x kk) := fun _ => by simp [encode, decode]

theorem sneImm (x : Reg) (kk : Byte) : Statement (.sneImm x kk) := fun _ => by simp [encode, decode]

theorem seReg (x : Reg) (y : Reg) : Statement (.seReg x y) := fun _ => by simp [encode, decode]

theorem ldImm (x : Reg) (kk : Byte) : Statement (.ldImm x kk) := fun _ => by simp [encode, decode]

theorem addImm (x : Reg) (kk : Byte) : Statement (.addImm x kk) := fun _ => by simp [encode, decode]

theorem ldReg (x : Reg) (y : Reg) : Statement (.ldReg x y) := fun _ => by simp [encode, decode, decodeFamily8]

theorem orReg (x : Reg) (y : Reg) : Statement (.orReg x y) := fun _ => by simp [encode, decode, decodeFamily8]

theorem andReg (x : Reg) (y : Reg) : Statement (.andReg x y) := fun _ => by simp [encode, decode, decodeFamily8]

theorem xorReg (x : Reg) (y : Reg) : Statement (.xorReg x y) := fun _ => by simp [encode, decode, decodeFamily8]

theorem addReg (x : Reg) (y : Reg) : Statement (.addReg x y) := fun _ => by simp [encode, decode, decodeFamily8]

theorem subReg (x : Reg) (y : Reg) : Statement (.subReg x y) := fun _ => by simp [encode, decode, decodeFamily8]

theorem shr (x : Reg) (y : Reg) : Statement (.shr x y) := fun _ => by simp [encode, decode, decodeFamily8]

theorem subnReg (x : Reg) (y : Reg) : Statement (.subnReg x y) := fun _ => by simp [encode, decode, decodeFamily8]

theorem shl (x : Reg) (y : Reg) : Statement (.shl x y) := fun _ => by simp [encode, decode, decodeFamily8]

theorem sneReg (x : Reg) (y : Reg) : Statement (.sneReg x y) := fun _ => by simp [encode, decode]

theorem ldI (nnn : BitVec 12) : Statement (.ldI nnn) := fun _ => by simp [encode, decode]

theorem jpV0 (nnn : BitVec 12) : Statement (.jpV0 nnn) := fun _ => by simp [encode, decode]

theorem rnd (x : Reg) (kk : Byte) : Statement (.rnd x kk) := fun _ => by simp [encode, decode]

theorem drw (x : Reg) (y : Reg) (n : Nat) : Statement (.drw x y n) := by
  intro h
  have hn : n < 16 := by simpa [Instr.wf] using h
  simp [encode, decode, Nat.mod_eq_of_lt hn]

theorem skp (x : Reg) : Statement (.skp x) := fun _ => by simp [encode, decode, decodeFamilyE]

theorem sknp (x : Reg) : Statement (.sknp x) := fun _ => by simp [encode, decode, decodeFamilyE]

theorem ldVxDt (x : Reg) : Statement (.ldVxDt x) := fun _ => by simp [encode, decode, decodeFamilyF]

theorem ldVxKey (x : Reg) : Statement (.ldVxKey x) := fun _ => by simp [encode, decode, decodeFamilyF]

theorem ldDtVx (x : Reg) : Statement (.ldDtVx x) := fun _ => by simp [encode, decode, decodeFamilyF]

theorem ldStVx (x : Reg) : Statement (.ldStVx x) := fun _ => by simp [encode, decode, decodeFamilyF]

theorem addI (x : Reg) : Statement (.addI x) := fun _ => by simp [encode, decode, decodeFamilyF]

theorem ldFont (x : Reg) : Statement (.ldFont x) := fun _ => by simp [encode, decode, decodeFamilyF]

theorem ldBcd (x : Reg) : Statement (.ldBcd x) := fun _ => by simp [encode, decode, decodeFamilyF]

theorem storeRegs (x : Reg) : Statement (.storeRegs x) := fun _ => by simp [encode, decode, decodeFamilyF]

theorem loadRegs (x : Reg) : Statement (.loadRegs x) := fun _ => by simp [encode, decode, decodeFamilyF]

end Sys2Proof.Laws.DecodeEncode
end

