-- ==== Sys2Proof/Laws/Step.lean ====
section
/-! SUPPORT. The step: what the fetch answers, when a step answers what, and what a host command does. -/

namespace Sys2Proof.Machine

/-! ## Fetch -/

/-- The word at the pc. -/
theorem State.fetch_ok {s : State} (h : s.pc.toNat + 1 < memSize) :
    s.fetch = .ok (wordOfBytes (s.readByte s.pc.toNat) (s.readByte (s.pc.toNat + 1))) := by
  simp [State.fetch, firstOutside_eq_none.2 (show 2 = 0 ∨ s.pc.toNat + 2 ≤ memSize by omega)]

/-- No word can be fetched from the pc. -/
theorem State.fetch_error {s : State} (h : memSize ≤ s.pc.toNat + 1) :
    s.fetch = .error (.memoryOutOfBounds s.pc (max s.pc.toNat memSize)) := by
  simp [State.fetch, firstOutside_eq_some.2 ⟨show 0 < 2 by omega, show memSize < s.pc.toNat + 2 by omega, rfl⟩]

/-- The fetch has these two outcomes and no other. -/
theorem State.fetch_cases (s : State) :
    (s.pc.toNat + 1 < memSize ∧
      s.fetch = .ok (wordOfBytes (s.readByte s.pc.toNat) (s.readByte (s.pc.toNat + 1)))) ∨
    (memSize ≤ s.pc.toNat + 1 ∧ s.fetch = .error (.memoryOutOfBounds s.pc (max s.pc.toNat memSize))) := by
  by_cases h : s.pc.toNat + 1 < memSize
  · exact .inl ⟨h, State.fetch_ok h⟩
  · exact .inr ⟨by omega, State.fetch_error (by omega)⟩

theorem State.fetch_congr {s t : State} (hpc : t.pc = s.pc) (hm : t.mem = s.mem) (hc : t.cfg = s.cfg) :
    t.fetch = s.fetch := by
  simp [State.fetch, State.readByte, hpc, hm, hc]

/-! ## One instruction -/

theorem stepInstr_fetchFault {s : State} (h : memSize ≤ s.pc.toNat + 1) :
    stepInstr s = .fault (.memoryOutOfBounds s.pc (max s.pc.toNat memSize)) := by
  simp [stepInstr, State.fetch_error h, raise]

theorem stepInstr_unsupported {s : State} {w : Word} {e : DecodeError} (hf : s.fetch = .ok w)
    (hd : decode w = .error e) : stepInstr s = .fault (.unsupportedOpcode s.pc w) := by
  simp [stepInstr, hf, hd, raise]

theorem stepInstr_exec {s : State} {w : Word} {i : Instr} (hf : s.fetch = .ok w) (hd : decode w = .ok i) :
    stepInstr s = exec i s.closeLoad := by
  simp [stepInstr, hf, hd]

/-- Everything an instruction step can do. -/
theorem stepInstr_cases (s : State) :
    (memSize ≤ s.pc.toNat + 1 ∧ stepInstr s = .fault (.memoryOutOfBounds s.pc (max s.pc.toNat memSize))) ∨
    (s.pc.toNat + 1 < memSize ∧ ∃ w, s.fetch = .ok w ∧
      w = wordOfBytes (s.readByte s.pc.toNat) (s.readByte (s.pc.toNat + 1)) ∧
      ((∃ e, decode w = .error e ∧ stepInstr s = .fault (.unsupportedOpcode s.pc w)) ∨
       ∃ i, decode w = .ok i ∧ stepInstr s = exec i s.closeLoad)) := by
  rcases s.fetch_cases with ⟨h, hf⟩ | ⟨h, -⟩
  · refine .inr ⟨h, _, hf, rfl, ?_⟩
    cases hd : decode (wordOfBytes (s.readByte s.pc.toNat) (s.readByte (s.pc.toNat + 1))) with
    | error e => exact .inl ⟨e, rfl, stepInstr_unsupported hf hd⟩
    | ok i => exact .inr ⟨i, rfl, stepInstr_exec hf hd⟩
  · exact .inl ⟨h, stepInstr_fetchFault h⟩

/-- Inversion: a completed instruction step ran the decoded instruction. -/
theorem stepInstr_eq_next {s t : State} (h : stepInstr s = .next t) :
    s.pc.toNat + 1 < memSize ∧ ∃ w i, s.fetch = .ok w ∧ decode w = .ok i ∧ exec i s.closeLoad = .next t := by
  rcases stepInstr_cases s with ⟨-, h'⟩ | ⟨hpc, w, hf, -, ⟨e, -, h'⟩ | ⟨i, hd, h'⟩⟩
  · simp [h'] at h
  · simp [h'] at h
  · exact ⟨hpc, w, i, hf, hd, h' ▸ h⟩

/-- Inversion: a completed STEP command ran the decoded instruction with its byte in front. -/
theorem stepWith_eq_next {r : Byte} {s t : State} (h : stepWith r s = .next t) :
    ∃ u, stepInstr { s with rndIn := r :: s.rndIn } = .next u ∧ t = { u with rndIn := s.rndIn } := by
  unfold stepWith at h
  split at h
  · rename_i u hu
    simp only [Host.Outcome.next.injEq] at h
    exact ⟨u, hu, h.symm⟩
  · simp at h
  · simp at h

/-- A STEP of a word that decodes: its instruction runs with the STEP's byte in front of the host's supply. -/
theorem stepWith_exec {s : State} {w : Word} {i : Instr} (r : Byte) (hf : s.fetch = .ok w) (hd : decode w = .ok i) :
    stepWith r s =
      match exec i { s with loadOpen := false, rndIn := r :: s.rndIn } with
      | .next t => .next { t with rndIn := s.rndIn }
      | .fault f => .fault f
      | .refused q => .refused q := by
  have hf' : ({ s with rndIn := r :: s.rndIn } : State).fetch = .ok w := hf ▸ State.fetch_congr rfl rfl rfl
  rw [stepWith, stepInstr_exec hf' hd]
  rfl

/-- The transaction of a STEP whose instruction completes. -/
theorem transact_step_next {s t : State} {w : Word} {i : Instr} (r : Byte) (hf : s.fetch = .ok w)
    (hd : decode w = .ok i) (h : exec i { s with loadOpen := false, rndIn := r :: s.rndIn } = .next t) :
    transact (.step r) s = .ok (.stepOk (marksDisplay i), { t with rndIn := s.rndIn }) := by
  simp [transact, applyCommand, stepWith_exec r hf hd, h, okReply, State.displayChanged, hf, hd]

/-- The transaction of a STEP whose instruction faults. -/
theorem transact_step_fault {s : State} {w : Word} {i : Instr} {f : Fault} (r : Byte) (hf : s.fetch = .ok w)
    (hd : decode w = .ok i) (h : exec i { s with loadOpen := false, rndIn := r :: s.rndIn } = .fault f) :
    transact (.step r) s = .ok (.fault f, { s with loadOpen := false }) := by
  simp [transact, applyCommand, stepWith_exec r hf hd, h, afterFault, State.closeLoad]

/-- The transaction of a STEP whose word is no instruction. -/
theorem transact_step_unsupported {s : State} {w : Word} {e : DecodeError} (r : Byte) (hf : s.fetch = .ok w)
    (hd : decode w = .error e) :
    transact (.step r) s = .ok (.fault (.unsupportedOpcode s.pc w), { s with loadOpen := false }) := by
  have hf' : ({ s with rndIn := r :: s.rndIn } : State).fetch = .ok w := hf ▸ State.fetch_congr rfl rfl rfl
  simp [transact, applyCommand, stepWith, stepInstr_unsupported hf' hd, afterFault, State.closeLoad]

/-- The transaction of a STEP whose fetch is out of bounds. -/
theorem transact_step_fetchFault {s : State} (r : Byte) (h : memSize ≤ s.pc.toNat + 1) :
    transact (.step r) s =
      .ok (.fault (.memoryOutOfBounds s.pc (max s.pc.toNat memSize)), { s with loadOpen := false }) := by
  have h' := stepInstr_fetchFault (s := { s with rndIn := r :: s.rndIn }) h
  simp [transact, applyCommand, stepWith, h', afterFault, State.closeLoad]

/-- Inversion: everything the transaction of a STEP can answer. -/
theorem transact_step_cases {s t : State} {r : Byte} {reply : Reply} (h : transact (.step r) s = .ok (reply, t)) :
    (∃ f, reply = .fault f ∧ t = s.closeLoad) ∨ ∃ i w u, s.fetch = .ok w ∧ decode w = .ok i ∧
      exec i { s with loadOpen := false, rndIn := r :: s.rndIn } = .next u ∧ t = { u with rndIn := s.rndIn } ∧
      reply = .stepOk (marksDisplay i) := by
  rcases s.fetch_cases with ⟨hpc, hf⟩ | ⟨hpc, hf⟩
  · cases hd : decode (wordOfBytes (s.readByte s.pc.toNat) (s.readByte (s.pc.toNat + 1))) with
    | error e =>
      rw [transact_step_unsupported r hf hd] at h; cases h
      exact .inl ⟨_, rfl, rfl⟩
    | ok i =>
      cases he : exec i { s with loadOpen := false, rndIn := r :: s.rndIn } with
      | next u => rw [transact_step_next r hf hd he] at h; cases h; exact .inr ⟨i, _, u, hf, hd, he, rfl, rfl⟩
      | fault f => rw [transact_step_fault r hf hd he] at h; cases h; exact .inl ⟨_, rfl, rfl⟩
      | refused q => exact absurd he (exec_not_refused _ _ _)
  · rw [transact_step_fetchFault r hpc] at h; cases h; exact .inl ⟨_, rfl, rfl⟩

/-! ## The host's queue -/

theorem step_idle {s : State} (h : s.pending = []) : step s = stepInstr s := by
  simp [step, h]

theorem step_command {s : State} {c : Command} {rest : List Command} (h : s.pending = c :: rest) :
    step s = applyCommand c { s with pending := rest } := by
  simp [step, h]

/-! ## Commands -/

theorem applyLoad_ok {s : State} {rom : List Byte} (ho : s.loadOpen = true) (hl : rom.length ≤ romMax) :
    applyLoad rom s = .next (s.writeBytes progBase rom).closeLoad := by
  simp [applyLoad, ho, Nat.not_lt.2 hl]

theorem applyLoad_tooLarge {s : State} {rom : List Byte} (ho : s.loadOpen = true) (hl : romMax < rom.length) :
    applyLoad rom s = .fault (.romTooLarge rom.length) := by
  simp [applyLoad, ho, hl, raise]

theorem applyLoad_refused {s : State} {rom : List Byte} (ho : s.loadOpen = false) :
    applyLoad rom s = .refused .loadWithoutReset := by
  simp [applyLoad, ho]

/-- Inversion: a LOAD that completes copied the ROM and nothing else. -/
theorem applyLoad_eq_next {s t : State} {rom : List Byte} (h : applyLoad rom s = .next t) :
    s.loadOpen = true ∧ rom.length ≤ romMax ∧ t = (s.writeBytes progBase rom).closeLoad := by
  by_cases ho : s.loadOpen = true
  · by_cases hl : romMax < rom.length
    · rw [applyLoad_tooLarge ho hl] at h; cases h
    · have hl : rom.length ≤ romMax := by omega
      rw [applyLoad_ok ho hl] at h; cases h; exact ⟨ho, hl, rfl⟩
  · rw [applyLoad_refused (by simpa using ho)] at h; cases h

theorem decayed_toNat (b : Byte) : (decayed b).toNat = b.toNat - 1 := by
  have := b.isLt
  unfold decayed
  split
  · rw [BitVec.toNat_sub]; simp; omega
  · omega

/-- Memory after RESET reads as the configuration says. -/
@[simp] theorem State.readByte_resetWith (cfg : Config) (a : Nat) : (State.resetWith cfg).readByte a = cfg.resetByte a :=
  rfl

@[simp] theorem State.readV_resetWith (cfg : Config) (r : Reg) : (State.resetWith cfg).readV r = 0 := by
  simp [State.resetWith, State.readV]

@[simp] theorem State.memWf_resetWith (cfg : Config) : (State.resetWith cfg).memWf := by
  simp [State.resetWith, State.memWf, Memory.wf]

end Sys2Proof.Machine
end

