-- ==== Sys2Proof/Tests/Slice0.lean ====
section
/-! SUPPORT. Tests of the model. Every expected value is the spec's: 30_encoding.md Table R84 for the words,
95_test_vectors.md for the steps and the commands (the id of the vector stands in each test's comment). The last part
has a witness for every obligation that has hypotheses. -/

open Sys2Proof Sys2Proof.Machine

namespace Sys2Proof.Tests

/-! ## Helpers -/

/-- The machine of the test vectors: the default font, `DIRTY_AT_RESET` 0 (95_test_vectors.md, conventions). -/
def base : State := State.resetWith { font := defaultFont, dirtyAtReset := false }

/-- One step of the word `w`, placed at the pc. -/
def after (s : State) (w : Nat) : Result := step (s.withFetchWord 16 w)

/-- A view of the next state. -/
def seen (r : Result) {α : Type} (f : State → α) : Option α :=
  match r with
  | .next t => some (f t)
  | _ => none

/-- The fault, if the result is one. -/
def faultOf (r : Result) : Option Fault :=
  match r with
  | .fault f => some f
  | _ => none

/-- The instruction of a word, if it has one. -/
def decoded (w : Word) : Option Instr := (decode w).toOption

/-- The state with one key pressed. -/
def pressing (s : State) (k : Fin 16) : State := { s with keys := s.keys.set k true }

/-- The state with `n` stack entries in use, each 0x020A. -/
def stacked (s : State) (n : Fin 17) : State := { s with sp := n, stack := Vector.replicate 16 0x020A }

/-! ## WellFormed -/

theorem test_wf_rejects_sixteen_rows : (Instr.drw 0 0 16).wf = false := by decide

theorem test_wf_accepts_fifteen_rows : (Instr.drw 0 0 15).wf = true := by decide

/-! ## Decode: a word written out from Table R84 for every row -/

theorem test_decode_cls : decoded 0x00E0 = some .cls := by decide
theorem test_decode_ret : decoded 0x00EE = some .ret := by decide
theorem test_decode_jp : decoded 0x1ABC = some (.jp 0xABC) := by decide
theorem test_decode_call : decoded 0x2ABC = some (.call 0xABC) := by decide
theorem test_decode_seImm : decoded 0x3A42 = some (.seImm 10 0x42) := by decide
theorem test_decode_sneImm : decoded 0x4A42 = some (.sneImm 10 0x42) := by decide
theorem test_decode_seReg : decoded 0x5AB0 = some (.seReg 10 11) := by decide
theorem test_decode_ldImm : decoded 0x6A55 = some (.ldImm 10 0x55) := by decide
theorem test_decode_addImm : decoded 0x7F02 = some (.addImm 15 0x02) := by decide
theorem test_decode_ldReg : decoded 0x8120 = some (.ldReg 1 2) := by decide
theorem test_decode_orReg : decoded 0x8121 = some (.orReg 1 2) := by decide
theorem test_decode_andReg : decoded 0x8122 = some (.andReg 1 2) := by decide
theorem test_decode_xorReg : decoded 0x8123 = some (.xorReg 1 2) := by decide
theorem test_decode_addReg : decoded 0x8AB4 = some (.addReg 10 11) := by decide
theorem test_decode_subReg : decoded 0x8125 = some (.subReg 1 2) := by decide
theorem test_decode_shr : decoded 0x8346 = some (.shr 3 4) := by decide
theorem test_decode_subnReg : decoded 0x8127 = some (.subnReg 1 2) := by decide
theorem test_decode_shl : decoded 0x834E = some (.shl 3 4) := by decide
theorem test_decode_sneReg : decoded 0x9120 = some (.sneReg 1 2) := by decide
theorem test_decode_ldI : decoded 0xA300 = some (.ldI 0x300) := by decide
theorem test_decode_jpV0 : decoded 0xB500 = some (.jpV0 0x500) := by decide
theorem test_decode_rnd : decoded 0xC30F = some (.rnd 3 0x0F) := by decide
theorem test_decode_drw : decoded 0xD12F = some (.drw 1 2 15) := by decide
theorem test_decode_skp : decoded 0xE49E = some (.skp 4) := by decide
theorem test_decode_sknp : decoded 0xE4A1 = some (.sknp 4) := by decide
theorem test_decode_ldVxDt : decoded 0xF507 = some (.ldVxDt 5) := by decide
theorem test_decode_ldVxKey : decoded 0xFF0A = some (.ldVxKey 15) := by decide
theorem test_decode_ldDtVx : decoded 0xF415 = some (.ldDtVx 4) := by decide
theorem test_decode_ldStVx : decoded 0xF118 = some (.ldStVx 1) := by decide
theorem test_decode_addI : decoded 0xF21E = some (.addI 2) := by decide
theorem test_decode_ldFont : decoded 0xF929 = some (.ldFont 9) := by decide
theorem test_decode_ldBcd : decoded 0xF433 = some (.ldBcd 4) := by decide
theorem test_decode_storeRegs : decoded 0xF155 = some (.storeRegs 1) := by decide
theorem test_decode_loadRegs : decoded 0xFF65 = some (.loadRegs 15) := by decide

/-- T2 to T10: the words near a row that match none. -/
theorem test_decode_rejects :
    [0x00E1, 0x0123, 0x5121, 0x9AB1, 0x8018, 0x812F, 0xE19F, 0xF100, 0xF175].map (fun w => decoded w)
      = List.replicate 9 none := by decide

/-- C1, C2: the first byte is the high one. -/
theorem test_decode_big_endian :
    (decodeTableWord 16 0x1234, decodeTableWord 16 0x3412) = (some (.jp 0x234), some (.seImm 4 0x12)) := by decide

/-! ## One step: fetch -/

/-- T1: zero-filled memory is no no-op. -/
theorem test_fetch_zero : faultOf (step base) = some (.unsupportedOpcode 0x200 0x0000) := by decide

/-- T11: the second byte of the word would be at 0x1000. -/
theorem test_fetch_outside : faultOf (step { base with pc := 0xFFF }) = some (.memoryOutOfBounds 0xFFF 0x1000) := by
  decide

/-- T13: the highest legal pc. -/
theorem test_fetch_last :
    seen (after { base with pc := 0xFFE } 0x6A55) (fun t => (t.pc, t.readV 10)) = some (0x1000, 0x55) := by decide

/-! ## One step: control transfer -/

/-- F8. -/
theorem test_ret :
    seen (after { stacked base 1 with pc := 0x214 } 0x00EE) (fun t => (t.pc, t.sp)) = some (0x20A, 0) := by decide

/-- F9. -/
theorem test_ret_underflow : faultOf (after base 0x00EE) = some (.stackUnderflow 0x200) := by decide

/-- F1. -/
theorem test_jp : seen (after base 0x1ABC) (fun t => t.pc) = some 0xABC := by decide

/-- F5. -/
theorem test_call :
    seen (after (stacked base 15) 0x2300) (fun t => (t.pc, t.sp, t.stack[15], t.stack[14]))
      = some (0x300, 16, 0x202, 0x20A) := by decide

/-- F6. -/
theorem test_call_overflow : faultOf (after (stacked base 16) 0x2300) = some (.stackOverflow 0x200) := by decide

/-- F11, F12. -/
theorem test_seImm :
    [0x3342, 0x3343].map (fun w => seen (after (base.writeV 3 0x42) w) (fun t => t.pc)) = [some 0x204, some 0x202] := by
  decide

/-- F13, F14. -/
theorem test_sneImm :
    [0x4342, 0x4343].map (fun w => seen (after (base.writeV 3 0x42) w) (fun t => t.pc)) = [some 0x202, some 0x204] := by
  decide

/-- F15, F16. -/
theorem test_seReg :
    [0x07, 0x08].map (fun b => seen (after ((base.writeV 1 0x07).writeV 2 b) 0x5120) (fun t => t.pc))
      = [some 0x204, some 0x202] := by decide

/-- F18, F19. -/
theorem test_sneReg :
    [0x08, 0x07].map (fun b => seen (after ((base.writeV 1 0x07).writeV 2 b) 0x9120) (fun t => t.pc))
      = [some 0x204, some 0x202] := by decide

/-- F22: no 12-bit mask. -/
theorem test_jpV0 : seen (after (base.writeV 0 0xFF) 0xBFFF) (fun t => t.pc) = some 0x10FE := by decide

/-! ## One step: register load, ALU, random -/

/-- A1. -/
theorem test_ldImm : seen (after (base.writeV 10 0x11) 0x6A55) (fun t => (t.readV 10, t.pc)) = some (0x55, 0x202) := by
  decide

/-- A3. -/
theorem test_addImm :
    seen (after ((base.writeV 1 0xFF).writeV vf 0x77) 0x7101) (fun t => (t.readV 1, t.readV vf)) = some (0x00, 0x77) := by
  decide

/-- A6. -/
theorem test_ldReg :
    seen (after ((base.writeV 1 0x12).writeV 2 0x34) 0x8120) (fun t => (t.readV 1, t.readV 2)) = some (0x34, 0x34) := by
  decide

/-- A7. -/
theorem test_orReg :
    seen (after (((base.writeV 1 0xF0).writeV 2 0x0F).writeV vf 0x55) 0x8121) (fun t => (t.readV 1, t.readV vf))
      = some (0xFF, 0x55) := by decide

/-- A8. -/
theorem test_andReg :
    seen (after (((base.writeV 1 0xF0).writeV 2 0x3C).writeV vf 0x55) 0x8122) (fun t => (t.readV 1, t.readV vf))
      = some (0x30, 0x55) := by decide

/-- A9. -/
theorem test_xorReg :
    seen (after (((base.writeV 1 0xFF).writeV 2 0x0F).writeV vf 0x55) 0x8123) (fun t => (t.readV 1, t.readV vf))
      = some (0xF0, 0x55) := by decide

/-- A12: sum 255, no carry. -/
theorem test_addReg :
    seen (after (((base.writeV 0 0xFE).writeV 1 0x01).writeV vf 0x01) 0x8014) (fun t => (t.readV 0, t.readV vf))
      = some (0xFF, 0x00) := by decide

/-- A16: with `x` = F the flag is written last. -/
theorem test_addReg_vf :
    seen (after ((base.writeV 1 0x20).writeV vf 0xF0) 0x8F14) (fun t => t.readV vf) = some 0x01 := by decide

/-- A20: equal operands, VF is 0. -/
theorem test_subReg_equal :
    seen (after (((base.writeV 0 0x33).writeV 1 0x33).writeV vf 0x01) 0x8015) (fun t => (t.readV 0, t.readV vf))
      = some (0x00, 0x00) := by decide

/-- A22: with `x` = F the result is written last. -/
theorem test_subReg_vf :
    seen (after ((base.writeV 1 0x02).writeV vf 0x07) 0x8F15) (fun t => t.readV vf) = some 0x05 := by decide

/-- A26: Vy is ignored. -/
theorem test_shr :
    seen (after ((base.writeV 3 0x05).writeV 4 0xFF) 0x8346) (fun t => (t.readV 3, t.readV vf)) = some (0x02, 0x01) := by
  decide

/-- A30. -/
theorem test_subnReg :
    seen (after (((base.writeV 0 0x20).writeV 1 0x10).writeV vf 0x01) 0x8017) (fun t => (t.readV 0, t.readV vf))
      = some (0xF0, 0x00) := by decide

/-- A32: with `x` = F the result is written last. -/
theorem test_subnReg_vf :
    seen (after ((base.writeV 1 0x09).writeV vf 0x02) 0x8F17) (fun t => t.readV vf) = some 0x07 := by decide

/-- A36: Vy is ignored. -/
theorem test_shl :
    seen (after ((base.writeV 3 0x80).writeV 4 0x01) 0x834E) (fun t => (t.readV 3, t.readV vf)) = some (0x00, 0x01) := by
  decide

/-- A38. -/
theorem test_rnd :
    seen (after { base with rndIn := [0xA7] } 0xC30F) (fun t => (t.readV 3, t.rndIn)) = some (0x07, []) := by decide

/-! ## One step: index register and memory transfers -/

/-- M1. -/
theorem test_ldI : seen (after { base with i := 0xF123 } 0xA300) (fun t => t.i) = some 0x0300 := by decide

/-- M5. -/
theorem test_addI : seen (after ({ base with i := 0xFFFF }.writeV 2 0x01) 0xF21E) (fun t => t.i) = some 0x0000 := by
  decide

/-- M7: no mask. -/
theorem test_ldFont : seen (after (base.writeV 0 0x10) 0xF029) (fun t => t.i) = some 0x0050 := by decide

/-- M12: the last legal I. -/
theorem test_ldBcd :
    seen (after ({ base with i := 0xFFD }.writeV 0 0x7B) 0xF033) (fun t => (t.readBytes 0xFFC 4, t.i))
      = some ([0x00, 0x01, 0x02, 0x03], 0xFFD) := by decide

/-- M14: I is not masked. -/
theorem test_ldBcd_outside :
    faultOf (after ({ base with i := 0x1234 }.writeV 0 0x7B) 0xF033) = some (.memoryOutOfBounds 0x200 0x1234) := by decide

/-- M15: V2 is not stored. -/
theorem test_storeRegs :
    seen (after ((({ base with i := 0x400 }.writeV 0 0x11).writeV 1 0x22).writeV 2 0x33) 0xF155)
      (fun t => (t.readBytes 0x400 3, t.i)) = some ([0x11, 0x22, 0x00], 0x402) := by decide

/-- M18: the last byte would be at 0x1000. -/
theorem test_storeRegs_outside :
    faultOf (after { base with i := 0xFF1 } 0xFF55) = some (.memoryOutOfBounds 0x200 0x1000) := by decide

/-- M21: the first five bytes of the font. -/
theorem test_loadRegs :
    seen (after base 0xF465) (fun t => (t.v.toList.take 6, t.i)) = some ([0xF0, 0x90, 0x90, 0x90, 0xF0, 0x00], 5) := by
  decide

/-! ## One step: display -/

/-- G1. -/
theorem test_cls :
    seen (after { base with disp := base.disp.toggle 63 31 } 0x00E0) (fun t => (t.disp.cell 63 31, t.dirty))
      = some (false, true) := by decide

/-- The state of G5: a sprite byte 0xF0 at (0, 0), cells (3, 0) and (4, 0) on. -/
def spriteOverlap : State :=
  { base.writeByte 0x210 0xF0 with i := 0x210, disp := (base.disp.toggle 3 0).toggle 4 0 }

/-- G5: (3, 0) collides, (4, 0) is outside the set bits. -/
theorem test_drw :
    seen (after spriteOverlap 0xD121)
      (fun t => (t.readV vf, [0, 1, 2, 3, 4, 5].map fun c => t.disp.cell c 0))
      = some (0x01, [true, true, true, false, true, false]) := by decide

/-- E5: the sprite C0 80 at (63, 31) wraps in both directions. -/
theorem test_drw_wraps :
    seen (after ((({ base with i := 0x210 }.writeBytes 0x210 [0xC0, 0x80]).writeV 1 63).writeV 2 31) 0xD122)
      (fun t => [t.disp.cell 63 31, t.disp.cell 0 31, t.disp.cell 63 0, t.disp.cell 0 0])
      = some [true, true, true, false] := by decide

/-! ## One step: keypad and timers -/

/-- K1, K2. -/
theorem test_skp :
    [10, 11].map (fun k => seen (after (pressing (base.writeV 4 0x0A) k) 0xE49E) (fun t => t.pc))
      = [some 0x204, some 0x202] := by decide

/-- K3: 16 is not masked to key 0. -/
theorem test_skp_outOfRange :
    faultOf (after (pressing (base.writeV 4 0x10) 0) 0xE49E) = some (.keyIndexOutOfRange 0x200 0x10) := by decide

/-- K4, K5. -/
theorem test_sknp :
    [base, pressing base 10].map (fun s => seen (after (s.writeV 4 0x0A) 0xE4A1) (fun t => t.pc))
      = [some 0x204, some 0x202] := by decide

/-- K7. -/
theorem test_ldVxKey_waits :
    seen (after (base.writeV 0 0x99) 0xF00A) (fun t => (t.readV 0, t.pc)) = some (0x99, 0x200) := by decide

/-- K8. -/
theorem test_ldVxKey_lowest :
    seen (after (pressing (pressing base 5) 3) 0xF00A) (fun t => (t.readV 0, t.pc)) = some (0x03, 0x202) := by decide

/-- K11. -/
theorem test_ldVxDt : seen (after { base with dt := 42 } 0xF507) (fun t => t.readV 5) = some 0x2A := by decide

/-- K13. -/
theorem test_ldDtVx : seen (after { base with dt := 9 } 0xF015) (fun t => (t.dt, t.pc)) = some (0, 0x202) := by decide

/-- K14. -/
theorem test_ldStVx :
    seen (after (base.writeV 1 0x10) 0xF118) (fun t => (t.st, t.beep)) = some (16, true) := by decide

/-! ## The host's commands -/

/-- S2. -/
theorem test_decay :
    seen (applyCommand .decay { base with st := 1, dt := 5 }) (fun t => (t.dt, t.st, t.beep)) = some (4, 0, false) := by
  decide

/-- S6: LOAD of the bytes 60 05 12, then STEP. -/
theorem test_load :
    seen (applyCommand (.load [0x60, 0x05, 0x12]) base)
      (fun t => (t.readBytes 0x1FF 5, seen (step t) fun u => (u.readV 0, u.pc)))
      = some ([0x00, 0x60, 0x05, 0x12, 0x00], some (0x05, 0x202)) := by decide

/-- S7: RESET takes the ROM away and brings the font back. -/
theorem test_reset :
    seen (applyCommand .reset ((base.writeBytes 0x200 [0x60, 0x07]).writeByte 0 0x11))
      (fun t => (t.readBytes 0x200 2, t.readByte 0, t.pc)) = some ([0x00, 0x00], 0xF0, 0x200) := by decide

/-- Program P4, command 4: SET_KEYS with the keys 3 and 5. -/
theorem test_setKeys :
    seen (applyCommand (.setKeys (Vector.ofFn fun k => k = 3 || k = 5)) base)
      (fun t => [t.keys[2], t.keys[3], t.keys[5]]) = some [false, true, true] := by decide

/-- Program P3, command 5. -/
theorem test_ackDirty : seen (applyCommand .ackDirty { base with dirty := true }) (fun t => t.dirty) = some false := by
  decide

/-- Program P7, command 2: STEP with the random byte 0x37. -/
theorem test_step_rnd :
    seen (applyCommand (.step 0x37) (base.withFetchWord 16 0xC10F)) (fun t => (t.readV 1, t.rndIn)) = some (0x07, []) := by
  decide

/-! ## Witnesses: states and operands that meet the hypotheses of the obligations, at the edges of their ranges -/

/-- The state with the word `w` at the pc. -/
def at16 (s : State) (w : Nat) : State := s.withFetchWord 16 w

theorem witness_EncodedInstructionDecodesToItself :
    (Instr.drw 15 15 15).wf = true ∧ (Instr.drw 0 0 0).wf = true ∧ Instr.cls.wf = true := by decide

theorem witness_DecodedWordIsTheEncodingOfItsInstruction :
    decode 0xD12F = .ok (.drw 1 2 15) ∧ decode 0xFF65 = .ok (.loadRegs 15) := ⟨rfl, rfl⟩

theorem witness_DecoderAcceptsExactlyTheTableRows :
    (∃ r ∈ opcodeRows, (0x8AB4 : Word) &&& r.mask = r.bits) ∧ ∀ r ∈ opcodeRows, (0x0000 : Word) &&& r.mask ≠ r.bits := by
  decide

theorem witness_StepRunsTheDecodedInstruction :
    (at16 { base with pc := 0xFFE } 0x6A55).pending = [] ∧
    (at16 { base with pc := 0xFFE } 0x6A55).pc.toNat + 1 < memSize ∧
    decode (wordOfBytes ((at16 { base with pc := 0xFFE } 0x6A55).readByte 0xFFE)
      ((at16 { base with pc := 0xFFE } 0x6A55).readByte 0xFFF)) = .ok (.ldImm 10 0x55) := ⟨rfl, by decide, rfl⟩

theorem witness_StepServesTheWaitingCommandFirst :
    ({ base with pending := [.decay, .step 0] } : State).pending = .decay :: [.step 0] := rfl

theorem witness_StepFollowsTheCycle_fetch :
    memSize ≤ ({ base with pc := 0xFFF } : State).pc.toNat + 1 ∧ ({ base with pc := 0xFFE } : State).pc.toNat + 1 < memSize := by
  decide

theorem witness_StepFollowsTheCycle_decode :
    base.pc.toNat + 1 < memSize ∧ decode (wordOfBytes (base.readByte 0x200) (base.readByte 0x201)) = .error (.unsupported 0) :=
  ⟨by decide, rfl⟩

theorem witness_StepFollowsTheCycle_fault :
    decode (wordOfBytes ((at16 base 0x00EE).readByte 0x200) ((at16 base 0x00EE).readByte 0x201)) = .ok .ret ∧
    ∃ f, exec .ret { at16 base 0x00EE with loadOpen := false, rndIn := [0x37] } = .fault f := ⟨rfl, _, rfl⟩

theorem witness_StepFollowsTheCycle_next :
    decode (wordOfBytes ((at16 { base with dirty := true } 0x1ABC).readByte 0x200)
      ((at16 { base with dirty := true } 0x1ABC).readByte 0x201)) = .ok (.jp 0xABC) ∧
    (∃ t, exec (.jp 0xABC) { at16 { base with dirty := true } 0x1ABC with loadOpen := false, rndIn := [0x37] } = .next t) ∧
    (at16 { base with dirty := true } 0x1ABC).dirty = true ∧ (∀ x, Instr.jp 0xABC ≠ .ldDtVx x) ∧
    ∀ x, Instr.jp 0xABC ≠ .ldStVx x := ⟨rfl, ⟨_, rfl⟩, rfl, by decide, by decide⟩

theorem witness_DisplayChangedMatchesDirty :
    (∃ t, transact (.step 0) (at16 base 0x00E0) = .ok (.stepOk true, t)) ∧
    ∃ t, transact (.step 0) (at16 base 0x1ABC) = .ok (.stepOk false, t) := ⟨⟨_, rfl⟩, ⟨_, rfl⟩⟩

theorem witness_FaultsChangeNothingAndRepeat :
    (∃ t, transact (.step 0) base = .ok (.fault (.unsupportedOpcode 0x200 0), t)) ∧
    ∃ f t, transact (.step 0) (at16 base 0x00EE) = .ok (.fault f, t) := ⟨⟨_, rfl⟩, ⟨_, _, rfl⟩⟩

theorem witness_InstructionWritesOnlyItsElements :
    (∃ t, exec (.storeRegs 15) { base with i := 0xFF0 } = .next t) ∧ ∃ t, exec (.drw 15 2 15) base = .next t :=
  ⟨⟨_, rfl⟩, ⟨_, rfl⟩⟩

theorem witness_PcMovesByNextOrSkip :
    (∃ t, exec (.ldVxKey 0) base = .next t) ∧ (∃ t, exec (.skp 0) (pressing base 0) = .next t) ∧
    Instr.skp 0 ≠ .ret ∧ (∀ nnn, Instr.skp 0 ≠ .jp nnn ∧ Instr.skp 0 ≠ .call nnn ∧ Instr.skp 0 ≠ .jpV0 nnn) ∧
    Instr.ldVxKey 0 ≠ .ret ∧
    ∀ nnn, Instr.ldVxKey 0 ≠ .jp nnn ∧ Instr.ldVxKey 0 ≠ .call nnn ∧ Instr.ldVxKey 0 ≠ .jpV0 nnn :=
  ⟨⟨_, rfl⟩, ⟨_, rfl⟩, by simp, by simp, by simp, by simp⟩

theorem witness_StepKeepsTheInvariant_instruction :
    Inv (at16 (stacked base 15) 0x2300) ∧ ∃ t, step (at16 (stacked base 15) 0x2300) = .next t := ⟨by decide, _, rfl⟩

theorem witness_StepKeepsTheInvariant_command :
    Inv { base with pending := [.load [0x60, 0x05]] } ∧
    ∃ t, step { base with pending := [.load [0x60, 0x05]] } = .next t := ⟨by decide, _, rfl⟩

theorem witness_OnlyTheHostChangesKeysAndClearsDirty :
    (∃ t, step { base with pending := [.setKeys (Vector.replicate 16 true)] } = .next t ∧ t.keys ≠ base.keys) ∧
    ∃ t, step { base with dirty := true, pending := [.ackDirty] } = .next t ∧ t.dirty = false :=
  ⟨⟨_, rfl, by decide⟩, ⟨_, rfl, rfl⟩⟩

theorem witness_WriteOnlyStateIsNotObservable :
    (∀ j : Fin 16, j.val < (stacked base 1).sp.val →
      ((Vector.replicate 16 0 : Vector Word 16).set 0 0x20A)[j] = (stacked base 1).stack[j]) ∧
    (∃ t, exec .ret (stacked base 1) = .next t) ∧ ∃ f, exec (.skp 0) ((stacked base 1).writeV 0 16) = .fault f :=
  ⟨by decide, ⟨_, rfl⟩, ⟨_, rfl⟩⟩

theorem witness_StackFaultsRaisedExactly :
    exec (.call 0x300) (stacked base 16) = .fault (.stackOverflow 0x200) ∧
    exec .ret base = .fault (.stackUnderflow 0x200) ∧
    (∃ t, transact (.step 0) (at16 base 0x00EE) = .ok (.fault (.stackUnderflow 0x200), t)) ∧
    ∃ t, transact (.step 0) (at16 (stacked base 16) 0x2300) = .ok (.fault (.stackOverflow 0x200), t) :=
  ⟨rfl, rfl, ⟨_, rfl⟩, ⟨_, rfl⟩⟩

theorem witness_MemoryFaultsRaisedExactly :
    step { base with pc := 0xFFF } = .fault (.memoryOutOfBounds 0xFFF 0x1000) ∧
    step (at16 { base with i := 0xFFF } 0xD012) = .fault (.memoryOutOfBounds 0x200 0x1000) ∧
    step (at16 { base with i := 0xFFE } 0xF033) = .fault (.memoryOutOfBounds 0x200 0x1000) ∧
    step (at16 { base with i := 0x1234 } 0xF055) = .fault (.memoryOutOfBounds 0x200 0x1234) ∧
    step (at16 { base with i := 0xFFF } 0xF165) = .fault (.memoryOutOfBounds 0x200 0x1000) :=
  ⟨rfl, rfl, rfl, rfl, rfl⟩

theorem witness_UnsupportedOpcodeRaisedExactly :
    base.pending = [] ∧ step base = .fault (.unsupportedOpcode 0x200 0) ∧
    step (at16 { base with pc := 0xFFE } 0x5AB1) = .fault (.unsupportedOpcode 0xFFE 0x5AB1) := ⟨rfl, rfl, rfl⟩

theorem witness_StepCompletesOrFaults : base.pending = [] ∧ (at16 base 0x00E0).pending = [] := by decide

theorem witness_ReturnPopsTheStack :
    base.sp.val = 0 ∧ 0 < (stacked base 1).sp.val ∧ 0 < (stacked base 16).sp.val := by decide

theorem witness_JumpSetsThePc : (0x200 : BitVec 12).toNat = base.pc.toNat := by decide

theorem witness_CallPushesTheReturnAddress : (stacked base 16).sp.val = 16 ∧ (stacked base 15).sp.val < 16 := by decide

theorem witness_ReturnAfterCallGoesToTheNextInstruction :
    (∃ t, exec (.call 0x210) { base with pc := 0x208 } = .next t) ∧ ∃ t, exec (.call 0xFFF) (stacked base 15) = .next t :=
  ⟨⟨_, rfl⟩, ⟨_, rfl⟩⟩

theorem witness_AddRegistersSetsTheCarry : (0 : Reg) ≠ vf ∧ (14 : Reg) ≠ vf := by decide

theorem witness_SubtractionsSetTheStrictFlag : (3 : Reg) ≠ vf ∧ (14 : Reg) ≠ vf := by decide

theorem witness_ShiftsKeepTheBitShiftedOut : (3 : Reg) ≠ vf ∧ (14 : Reg) ≠ vf := by decide

theorem witness_RandomByteIsMaskedAndConsumed :
    ({ base with rndIn := [0xA7] } : State).rndIn = 0xA7 :: [] ∧ base.rndIn = [] ∧ (0x0F : Byte).getLsbD 7 = false := by
  decide

theorem witness_StepInputFeedsTheRandomInstruction :
    (at16 base 0xC10F).fetch = .ok (encode (.rnd 1 0x0F)) ∧
    (∃ reply t, transact (.step 0x37) (at16 base 0xC10F) = .ok (reply, t)) ∧
    (at16 base 0xE19E).fetch = .ok (encode (.skp 1)) ∧ (Instr.skp 1).wf = true ∧ ∀ x kk, Instr.skp 1 ≠ .rnd x kk :=
  ⟨rfl, ⟨_, _, rfl⟩, rfl, rfl, by simp⟩

theorem witness_BcdStoresTheDigits :
    Memory.wf base.cfg base.mem ∧ memSize ≤ ({ base with i := 0xFFE } : State).i.toNat + 2 ∧
    ({ base with i := 0xFFD } : State).i.toNat + 2 < memSize := by decide

theorem witness_RegisterDumpStoresV0ToVx :
    Memory.wf base.cfg base.mem ∧ memSize ≤ ({ base with i := 0xFF1 } : State).i.toNat + (15 : Reg).val ∧
    ({ base with i := 0xFF0 } : State).i.toNat + (15 : Reg).val < memSize ∧ (15 : Reg) ≤ 15 := by decide

theorem witness_RegisterLoadReadsV0ToVx :
    memSize ≤ ({ base with i := 0xFFF } : State).i.toNat + (1 : Reg).val ∧
    ({ base with i := 0xFFF } : State).i.toNat + (0 : Reg).val < memSize ∧ (0 : Reg) ≤ 0 ∧ (0 : Reg) < 1 := by decide

theorem witness_DumpThenLoadRestoresTheRegisters :
    Memory.wf base.cfg base.mem ∧ (∃ t, exec (.storeRegs 3) { base with i := 0xFFC } = .next t) ∧ (3 : Reg) ≤ 3 ∧
    (3 : Reg) < 4 := ⟨by decide, ⟨_, rfl⟩, by decide, by decide⟩

theorem witness_StoreIsSeenByTheNextFetch :
    Memory.wf base.cfg base.mem ∧ (1 : Reg).val = (0 : Reg).val + 1 ∧ (1 : Reg) ≤ 1 ∧
    ({ base with i := 0x202 } : State).addrI (0 : Reg).val = ({ base with i := 0x202 } : State).pc.toNat + 2 ∧
    ∃ t, exec (.storeRegs 1) { base with i := 0x202 } = .next t := ⟨by decide, by decide, by decide, by decide, _, rfl⟩

theorem witness_ClearBlanksTheDisplay : (at16 base 0x00E0).fetch = .ok 0x00E0 := rfl

theorem witness_DrawTogglesTheSpriteCells_bounds :
    (15 : Nat) < 16 ∧ 0 < 15 ∧ memSize ≤ ({ base with i := 0xFF2 } : State).i.toNat + 15 - 1 ∧
    ({ base with i := 0xFF1 } : State).i.toNat + 15 - 1 < memSize ∧
    ((0 : Nat) = 0 ∨ ({ base with i := 0xFFFF } : State).i.toNat + 0 - 1 < memSize) := by decide

theorem witness_DrawTogglesTheSpriteCells_cells :
    underSprite (spriteOverlap.sprite 1) 0 0 3 0 ∧ spriteOverlap.disp.cell 3 0 = true ∧
    ¬ underSprite (spriteOverlap.sprite 1) 0 0 4 0 := by
  refine ⟨⟨0, 3, by decide, by decide, by decide, by decide, by decide⟩, by decide, ?_⟩
  rintro ⟨row, col, hrow, hcol, hbit, hx, -⟩
  obtain rfl : row = 0 := by
    have : (spriteOverlap.sprite 1).length = 1 := by decide
    omega
  obtain rfl : col = 4 := by
    have : ((4 : Fin 64)).val = 4 := by decide
    omega
  have h4 : spriteBit ((spriteOverlap.sprite 1)[0]'(by decide)) 4 = false := by decide
  rw [h4] at hbit
  cases hbit

theorem witness_DrawTogglesTheSpriteCells_noCollision :
    ∀ cx cy, underSprite (base.sprite 1) 0 0 cx cy → base.disp.cell cx cy = false := by
  intro cx cy _
  simp [base, State.resetWith, Display.cell]

theorem witness_DrawingTwiceRestoresTheDisplay :
    ∃ t, exec (.drw 1 2 1) spriteOverlap = .next t ∧ t.readV 1 = spriteOverlap.readV 1 ∧
      t.readV 2 = spriteOverlap.readV 2 := ⟨_, rfl, by decide, by decide⟩

theorem witness_DisplayOutputIsRowMajor :
    (∃ t, exec (.jp 0xABC) { base with dirty := true } = .next t) ∧ ({ base with dirty := true } : State).displayOut.2 = true :=
  ⟨⟨_, rfl⟩, rfl⟩

theorem witness_KeySkipsTestTheSnapshot :
    15 < ((base.writeV 4 16).readV 4).toNat ∧ ((base.writeV 4 15).readV 4).toNat = (15 : Fin 16).val := by decide

theorem witness_KeyWaitTakesTheLowestKey :
    (∀ k : Fin 16, base.keys[k] = false) ∧ (pressing (pressing base 5) 3).keys[(3 : Fin 16)] = true ∧
    ∀ j : Fin 16, j < 3 → (pressing (pressing base 5) 3).keys[j] = false := by decide

theorem witness_DecayTakesOneFromEachTimer :
    (∃ t, exec (.ldDtVx 0) base = .next t) ∧ ∃ t, exec (.ldStVx 0) base = .next t := ⟨⟨_, rfl⟩, ⟨_, rfl⟩⟩

theorem witness_LoadCopiesTheRom :
    Memory.wf base.cfg base.mem ∧ base.loadOpen = true ∧ (List.replicate 3584 (0xAB : Byte)).length ≤ 3584 ∧
    3584 < (List.replicate 3585 (0xAB : Byte)).length ∧ base.closeLoad.loadOpen = false :=
  ⟨by decide, rfl, List.length_replicate.le, by rw [List.length_replicate]; decide, rfl⟩

theorem witness_ResetGivesTheResetValues : 80 ≤ 80 ∧ 80 ≤ 4095 := by decide

theorem witness_BootFetchesTheFirstRomWord :
    (List.replicate 3582 (0xAB : Byte)).length + 2 ≤ 3584 ∧ ([] : List Byte).length + 2 ≤ 3584 :=
  ⟨by rw [List.length_replicate], by decide⟩

end Sys2Proof.Tests
end

section
/-! PROOFS. The state of 10_state.md: which elements and registers each operation, and so each instruction, may write
(Table R20, R21), and the values after RESET (Table R36). -/

namespace Sys2Proof.Machine

/-! ## The frame of an operation -/

/-- From `s` to `t` only the elements `es` are written, and of the general registers only `rs`. -/
def WritesOnly (es : List Elem) (rs : List Reg) (s t : State) : Prop := KeptBut es s t ∧ RegsKeptBut rs s t

section
variable {es fs : List Elem} {rs qs : List Reg} {s t u : State}

theorem WritesOnly.mono (h : WritesOnly es rs s t) (hes : ∀ e ∈ es, e ∈ fs) (hrs : ∀ r ∈ rs, r ∈ qs) :
    WritesOnly fs qs s t :=
  ⟨h.1.mono hes, fun r hr => h.2 r fun hm => hr (hrs r hm)⟩

/-- Two operations, one after the other, write what either of them writes. -/
theorem WritesOnly.append (h : WritesOnly es rs s t) (k : WritesOnly fs qs t u) :
    WritesOnly (es ++ fs) (rs ++ qs) s u := by
  refine ⟨(h.1.mono ?_).trans (k.1.mono ?_), fun r hr => ?_⟩
  · exact fun e he => List.mem_append_left fs he
  · exact fun e he => List.mem_append_right es he
  · rw [List.mem_append, not_or] at hr
    exact (k.2 r hr.2).trans (h.2 r hr.1)

/-- An operation that leaves the element `v` alone writes no register. -/
theorem writesOnly_of_keptBut (h : KeptBut es s t) (hv : Elem.v ∉ es) : WritesOnly es [] s t :=
  ⟨h, fun r _ => h .v hv r⟩

end

theorem writesOnly_refl (s : State) : WritesOnly [] [] s s := writesOnly_of_keptBut (.refl _ s) (by simp)

theorem writesOnly_setPc (s : State) (w : Word) : WritesOnly [.pc] [] s (s.setPc w) :=
  writesOnly_of_keptBut (keptBut_of_fields (by simp [Elem.kept])) (by simp)

theorem writesOnly_advance (s : State) : WritesOnly [.pc] [] s s.advance := writesOnly_setPc s _

theorem writesOnly_skipIf (s : State) (c : Bool) : WritesOnly [.pc] [] s (s.skipIf c) :=
  writesOnly_of_keptBut (keptBut_of_fields (by simp [Elem.kept])) (by simp)

theorem writesOnly_setI (s : State) (w : Word) : WritesOnly [.i] [] s (s.setI w) :=
  writesOnly_of_keptBut (keptBut_of_fields (by simp [Elem.kept])) (by simp)

theorem writesOnly_setDt (s : State) (b : Byte) : WritesOnly [.dt] [] s (s.setDt b) :=
  writesOnly_of_keptBut (keptBut_of_fields (by simp [Elem.kept])) (by simp)

theorem writesOnly_setSt (s : State) (b : Byte) : WritesOnly [.st] [] s (s.setSt b) :=
  writesOnly_of_keptBut (keptBut_of_fields (by simp [Elem.kept])) (by simp)

theorem writesOnly_setDisp (s : State) (d : Display) : WritesOnly [.disp, .dirty] [] s (s.setDisp d) :=
  writesOnly_of_keptBut (keptBut_of_fields (by simp [Elem.kept])) (by simp)

theorem writesOnly_writeBytes (s : State) (base : Nat) (bs : List Byte) :
    WritesOnly [.mem] [] s (s.writeBytes base bs) :=
  writesOnly_of_keptBut (keptBut_of_fields (by simp [Elem.kept])) (by simp)

theorem writesOnly_writeV (s : State) (x : Reg) (b : Byte) : WritesOnly [.v] [x] s (s.writeV x b) := by
  refine ⟨keptBut_of_fields (by simp [Elem.kept]), fun r hr => ?_⟩
  exact s.readV_writeV_other b (by simpa using hr)

/-- The register load of `Fx65` reaches V0 to Vx only (43_index_memory.md R175). -/
theorem writesOnly_loadRegsFrom (s : State) (x : Reg) :
    WritesOnly [.v] (regsWrittenBy (.loadRegs x)) s { s with v := s.loadRegsFrom x } := by
  refine ⟨keptBut_of_fields (by simp [Elem.kept, State.readByte]), fun r hr => ?_⟩
  have hgt : ¬ r ≤ x := by simpa [regsWrittenBy] using hr
  exact (s.loadRegsFrom_getElem x r).trans (if_neg hgt)

/-- A draw takes from the host's supply, or advances the counter of the free bytes. -/
theorem writesOnly_drawRnd (s : State) : WritesOnly [.rndIn, .draws] [] s s.drawRnd.2 := by
  refine writesOnly_of_keptBut ?_ (by simp)
  cases hr : s.rndIn with
  | nil => rw [State.drawRnd_free hr]; exact keptBut_of_fields (by simp [Elem.kept, State.readByte, State.readV])
  | cons b rest =>
    rw [State.drawRnd_supplied hr]
    exact keptBut_of_fields (by simp [Elem.kept, State.readByte, State.readV])

/-! ## The frame of the shared operations and of the instructions with several outcomes -/

/-- Whatever ends in `next` writes the pc too. -/
theorem WritesOnly.advance {es : List Elem} {rs : List Reg} {s t : State} (h : WritesOnly es rs s t) :
    WritesOnly (es ++ [.pc]) rs s t.advance := by
  simpa using h.append (writesOnly_advance t)

theorem writesOnly_result (s : State) (x : Reg) (r : Byte) : WritesOnly [.v, .pc] [x] s (s.result x r) :=
  (writesOnly_writeV s x r).advance

theorem writesOnly_resultThenFlag (s : State) (x : Reg) (r f : Byte) :
    WritesOnly [.v, .pc] [x, vf] s (s.resultThenFlag x r f) :=
  ((writesOnly_writeV s x r).append (writesOnly_writeV _ vf f)).advance.mono (by simp) (by simp)

theorem writesOnly_flagThenResult (s : State) (x : Reg) (r f : Byte) :
    WritesOnly [.v, .pc] [x, vf] s (s.flagThenResult x r f) :=
  ((writesOnly_writeV s vf f).append (writesOnly_writeV _ x r)).advance.mono (by simp) (by simp)

theorem writesOnly_of_keySkip {s t : State} {x : Reg} {level : Bool} (h : s.keySkip x level = .next t) :
    WritesOnly [.pc] [] s t := by
  rcases s.keySkip_cases x level with ⟨-, hk⟩ | ⟨c, hk⟩ <;> rw [hk] at h <;> cases h
  exact writesOnly_skipIf s c

theorem writesOnly_of_ret {s t : State} (h : exec .ret s = .next t) : WritesOnly [.sp, .pc] [] s t := by
  refine writesOnly_of_keptBut ?_ (by simp)
  by_cases hs : 0 < s.sp.val
  · rw [exec_ret_live hs] at h; cases h
    exact keptBut_of_fields (by simp [Elem.kept, State.readByte, State.readV])
  · rw [exec_ret_empty (by omega)] at h; cases h

theorem writesOnly_of_call {nnn : BitVec 12} {s t : State} (h : exec (.call nnn) s = .next t) :
    WritesOnly [.stack, .sp, .pc] [] s t := by
  refine writesOnly_of_keptBut ?_ (by simp)
  by_cases hs : s.sp.val < 16
  · rw [exec_call_room hs] at h; cases h
    exact keptBut_of_fields (by simp [Elem.kept, State.readByte, State.readV])
  · rw [exec_call_full (by omega)] at h; cases h

theorem writesOnly_of_ldVxKey {x : Reg} {s t : State} (h : exec (.ldVxKey x) s = .next t) :
    WritesOnly [.v, .pc] [x] s t := by
  rcases exec_ldVxKey_cases s x with ⟨-, hk⟩ | ⟨b, hk⟩ <;> rw [hk] at h <;> cases h
  · exact (writesOnly_refl s).mono (by simp) (by simp)
  · exact writesOnly_result s x b

/-! ## The frame of an instruction -/

/-- Every instruction writes only what Table R20 and R21 list for it. -/
theorem exec_writesOnly {i : Instr} {s t : State} (h : exec i s = .next t) :
    WritesOnly (writesOf i) (regsWrittenBy i) s t := by
  cases i
  case ret => exact writesOnly_of_ret h
  case call nnn => exact writesOnly_of_call h
  case skp x => exact writesOnly_of_keySkip h
  case sknp x => exact writesOnly_of_keySkip h
  case ldVxKey x => exact writesOnly_of_ldVxKey h
  case drw x y n =>
    obtain ⟨-, h⟩ := State.withAccess_eq_next h
    cases h
    exact ((writesOnly_setDisp s _).append (writesOnly_writeV _ vf _)).advance.mono (by simp [writesOf])
      (by simp [regsWrittenBy])
  case ldBcd x =>
    obtain ⟨-, h⟩ := State.withAccess_eq_next h
    cases h
    exact (writesOnly_writeBytes s _ _).advance
  case storeRegs x =>
    obtain ⟨-, h⟩ := State.withAccess_eq_next h
    cases h
    exact ((writesOnly_writeBytes s _ _).append (writesOnly_setI _ _)).advance
  case loadRegs x =>
    obtain ⟨-, h⟩ := State.withAccess_eq_next h
    cases h
    exact ((writesOnly_loadRegsFrom s x).append (writesOnly_setI _ _)).advance.mono (by simp [writesOf]) (by simp)
  all_goals cases h
  case cls => exact (writesOnly_setDisp s _).advance
  case jp nnn => exact writesOnly_setPc s _
  case jpV0 nnn => exact writesOnly_setPc s _
  case seImm x kk => exact writesOnly_skipIf s _
  case sneImm x kk => exact writesOnly_skipIf s _
  case seReg x y => exact writesOnly_skipIf s _
  case sneReg x y => exact writesOnly_skipIf s _
  case addReg x y => exact writesOnly_resultThenFlag s x _ _
  case subReg x y => exact writesOnly_flagThenResult s x _ _
  case shr x y => exact writesOnly_flagThenResult s x _ _
  case subnReg x y => exact writesOnly_flagThenResult s x _ _
  case shl x y => exact writesOnly_flagThenResult s x _ _
  case rnd x kk =>
    exact ((writesOnly_drawRnd s).append (writesOnly_result _ x _)).mono (by simp [writesOf]) (by simp [regsWrittenBy])
  case ldDtVx x => exact (writesOnly_setDt s _).advance
  case ldStVx x => exact (writesOnly_setSt s _).advance
  case ldI nnn => exact (writesOnly_setI s _).advance
  case addI x => exact (writesOnly_setI s _).advance
  case ldFont x => exact (writesOnly_setI s _).advance
  all_goals exact writesOnly_result s _ _

/-- Settles O10, from the frame of each instruction. -/
theorem instructionWritesOnlyItsElements : Obligations.InstructionWritesOnlyItsElements :=
  fun _ _ _ h => exec_writesOnly h

/-! ## RESET -/

/-- The state after RESET satisfies the invariant: memory lists no cell, pc is 0x200 and no stack entry is live. -/
theorem inv_resetWith (cfg : Config) : Inv (State.resetWith cfg) := by
  refine ⟨State.memWf_resetWith cfg, ?_, fun k hk => ?_⟩
  · show (0x200 : Word).toNat ≤ 0x10FE
    decide
  · exact absurd hk (Nat.not_lt_zero k.val)

/-- Settles O13, for every configuration and so for the model's own. -/
theorem resetSatisfiesTheInvariant : Obligations.ResetSatisfiesTheInvariant :=
  ⟨inv_resetWith, inv_resetWith chipConfig⟩

/-- The font table reads as the configuration's font. -/
theorem resetByte_font (cfg : Config) (k : Fin 80) : cfg.resetByte k.val = cfg.font[k] := by
  simp [Config.resetByte]

/-- Above the font table memory reads as zero. -/
theorem resetByte_above (cfg : Config) {a : Nat} (h : 80 ≤ a) : cfg.resetByte a = 0 :=
  dif_neg (Nat.not_lt.2 h)

/-- The command RESET always completes. -/
theorem transact_reset (s : State) : transact .reset s = .ok (.ok, applyReset s) := rfl

/-- RESET keeps the configuration, so memory then reads as the machine's own font and zeros. -/
theorem readByte_applyReset (s : State) (a : Nat) : (applyReset s).readByte a = s.cfg.resetByte a :=
  State.readByte_resetWith s.cfg a

theorem readV_applyReset (s : State) (r : Reg) : (applyReset s).readV r = 0 := State.readV_resetWith s.cfg r

/-- Settles O55, element by element of Table R36. -/
theorem resetGivesTheResetValues : Obligations.ResetGivesTheResetValues := by
  intro s
  refine ⟨applyReset s, transact_reset s, ?font, ?zeros, readV_applyReset s, rfl, rfl, rfl, ?stack, rfl, rfl, ?keys,
    ?disp, rfl, rfl, rfl, rfl, rfl, rfl, rfl⟩
  case font => exact fun k => (readByte_applyReset s k.val).trans (resetByte_font s.cfg k)
  case zeros => exact fun a ha => (readByte_applyReset s a).trans (resetByte_above s.cfg ha)
  case stack => exact fun k => Vector.getElem_replicate k.isLt
  case keys => exact fun k => Vector.getElem_replicate k.isLt
  case disp => exact Display.cell_blank

end Sys2Proof.Machine
end

section
/-! PROOFS. The opcode table of 30_encoding.md Table R84: each row in terms of the fields it fixes, the decoder against
the rows, and the fault of a step whose word matches none (60_exceptions.md R221). -/

namespace Sys2Proof

/-! ## A mask of the table keeps the fields that its row fixes -/

theorem and_maskOp (w : Word) : w &&& 0xF000 = encodeNNN (fieldOp w) 0 :=
  calc w &&& 0xF000 = (fieldOp w ++ fieldNNN w) &&& (BitVec.allOnes 4 ++ 0#12) :=
        congrArg (· &&& _) (encodeNNN_fields w).symm
    _ = encodeNNN (fieldOp w) 0 := by simp only [BitVec.and_append, BitVec.and_allOnes, BitVec.and_zero]; rfl

theorem and_maskOpKK (w : Word) : w &&& 0xF0FF = encodeXKK (fieldOp w) 0 (fieldKK w) :=
  calc w &&& 0xF0FF = (fieldOp w ++ regBits (fieldX w) ++ fieldKK w) &&&
          (BitVec.allOnes 4 ++ 0#4 ++ BitVec.allOnes 8) := congrArg (· &&& _) (encodeXKK_fields w).symm
    _ = encodeXKK (fieldOp w) 0 (fieldKK w) := by
        simp only [BitVec.and_append, BitVec.and_allOnes, BitVec.and_zero]; rfl

theorem and_maskOpN (w : Word) : w &&& 0xF00F = encodeXYN (fieldOp w) 0 0 (fieldN w) :=
  calc w &&& 0xF00F = (fieldOp w ++ regBits (fieldX w) ++ regBits (fieldY w) ++ fieldN w) &&&
          (BitVec.allOnes 4 ++ 0#4 ++ 0#4 ++ BitVec.allOnes 4) := congrArg (· &&& _) (encodeXYN_fields w).symm
    _ = encodeXYN (fieldOp w) 0 0 (fieldN w) := by
        simp only [BitVec.and_append, BitVec.and_allOnes, BitVec.and_zero]; rfl

/-! ## The rows, by the fields they fix -/

/-- The word `w` is this row's instruction. -/
def OpcodeRow.Matches (r : OpcodeRow) (w : Word) : Prop := w &&& r.mask = r.bits

/-- A row that fixes the whole word. -/
def wholeRow (b : Word) : OpcodeRow := ⟨b, 0xFFFF⟩

/-- A row that fixes the field `op`. -/
def opRow (op : BitVec 4) : OpcodeRow := ⟨encodeNNN op 0, 0xF000⟩

/-- A row that fixes the fields `op` and `n`. -/
def opNRow (op n : BitVec 4) : OpcodeRow := ⟨encodeXYN op 0 0 n, 0xF00F⟩

/-- A row that fixes the fields `op` and `kk`. -/
def opKKRow (op : BitVec 4) (kk : Byte) : OpcodeRow := ⟨encodeXKK op 0 kk, 0xF0FF⟩

/-- The table, family by family. -/
theorem opcodeRows_eq : opcodeRows =
    [0x00E0, 0x00EE].map wholeRow ++ [1, 2, 3, 4].map opRow ++ [opNRow 5 0] ++ [6, 7].map opRow ++
    [0, 1, 2, 3, 4, 5, 6, 7, 0xE].map (opNRow 8) ++ [opNRow 9 0] ++ [0xA, 0xB, 0xC, 0xD].map opRow ++
    [0x9E, 0xA1].map (opKKRow 0xE) ++ [0x07, 0x0A, 0x15, 0x18, 0x1E, 0x29, 0x33, 0x55, 0x65].map (opKKRow 0xF) := rfl

theorem wholeRow_matches {b w : Word} : (wholeRow b).Matches w ↔ fieldOp w = fieldOp b ∧ w = b := by
  rw [OpcodeRow.Matches, wholeRow, show w &&& 0xFFFF = w from BitVec.and_allOnes]
  exact ⟨fun h => ⟨congrArg fieldOp h, h⟩, And.right⟩

theorem opRow_matches {op : BitVec 4} {w : Word} : (opRow op).Matches w ↔ fieldOp w = op := by
  rw [OpcodeRow.Matches, opRow, and_maskOp]
  exact ⟨fun h => by simpa using congrArg fieldOp h, fun h => by rw [h]⟩

theorem opNRow_matches {op n : BitVec 4} {w : Word} : (opNRow op n).Matches w ↔ fieldOp w = op ∧ fieldN w = n := by
  rw [OpcodeRow.Matches, opNRow, and_maskOpN]
  refine ⟨fun h => ⟨?_, ?_⟩, fun ⟨hop, hn⟩ => by rw [hop, hn]⟩
  · simpa using congrArg fieldOp h
  · simpa using congrArg fieldN h

theorem opKKRow_matches {op : BitVec 4} {kk : Byte} {w : Word} :
    (opKKRow op kk).Matches w ↔ fieldOp w = op ∧ fieldKK w = kk := by
  rw [OpcodeRow.Matches, opKKRow, and_maskOpKK]
  refine ⟨fun h => ⟨?_, ?_⟩, fun ⟨hop, hkk⟩ => by rw [hop, hkk]⟩
  · simpa using congrArg fieldOp h
  · simpa using congrArg fieldKK h

/-- Which words match a row, by the number in the field `op`, as the decoder selects a family. -/
theorem exists_row_matches_iff {w : Word} : (∃ r ∈ opcodeRows, r.Matches w) ↔
    ((fieldOp w).toNat = 0 ∧ w ∈ [0x00E0, 0x00EE]) ∨ (fieldOp w).toNat ∈ [1, 2, 3, 4] ∨
    ((fieldOp w).toNat = 5 ∧ fieldN w = 0) ∨ (fieldOp w).toNat ∈ [6, 7] ∨
    ((fieldOp w).toNat = 8 ∧ fieldN w ∈ [0, 1, 2, 3, 4, 5, 6, 7, 0xE]) ∨
    ((fieldOp w).toNat = 9 ∧ fieldN w = 0) ∨ (fieldOp w).toNat ∈ [0xA, 0xB, 0xC, 0xD] ∨
    ((fieldOp w).toNat = 0xE ∧ fieldKK w ∈ [0x9E, 0xA1]) ∨
    ((fieldOp w).toNat = 0xF ∧ fieldKK w ∈ [0x07, 0x0A, 0x15, 0x18, 0x1E, 0x29, 0x33, 0x55, 0x65]) := by
  have hcls : fieldOp 0x00E0#16 = 0#4 := rfl
  have hret : fieldOp 0x00EE#16 = 0#4 := rfl
  simp [opcodeRows_eq, wholeRow_matches, opRow_matches, opNRow_matches, opKKRow_matches, hcls, hret,
    BitVec.toNat_eq_nat, and_or_left, or_assoc]

/-! ## The words that each family accepts -/

/-- A choice of the decoder accepts by its condition, or as its other branch does. -/
theorem ite_ok_iff {c : Prop} [Decidable c] {a : Instr} {d : Except DecodeError Instr} :
    (∃ i, (if c then .ok a else d) = .ok i) ↔ c ∨ ∃ i, d = .ok i := by
  by_cases hc : c <;> simp [hc]

theorem decodeFamily0_ok_iff {w : Word} : (∃ i, decodeFamily0 w = .ok i) ↔ w ∈ [0x00E0, 0x00EE] := by
  simp [decodeFamily0, ite_ok_iff]

theorem decodeFamily8_ok_iff {w : Word} :
    (∃ i, decodeFamily8 w = .ok i) ↔ fieldN w ∈ [0, 1, 2, 3, 4, 5, 6, 7, 0xE] := by
  unfold decodeFamily8
  split <;> simp_all [← BitVec.toNat_inj]

theorem decodeFamilyE_ok_iff {w : Word} : (∃ i, decodeFamilyE w = .ok i) ↔ fieldKK w ∈ [0x9E, 0xA1] := by
  simp [decodeFamilyE, ite_ok_iff]

theorem decodeFamilyF_ok_iff {w : Word} : (∃ i, decodeFamilyF w = .ok i) ↔
    fieldKK w ∈ [0x07, 0x0A, 0x15, 0x18, 0x1E, 0x29, 0x33, 0x55, 0x65] := by
  simp [decodeFamilyF, ite_ok_iff]

/-! ## The decoder against the table -/

/-- Family by family, on the number in `op`: what the family's branch accepts is what its rows ask. -/
theorem decode_ok_iff {w : Word} : (∃ i, decode w = .ok i) ↔ ∃ r ∈ opcodeRows, r.Matches w := by
  rw [exists_row_matches_iff]
  unfold decode
  split
  case h_16 =>
    have hF : (fieldOp w).toNat = 0xF := by
      have hlt : (fieldOp w).toNat < 16 := (fieldOp w).isLt
      grind
    simp [hF, decodeFamilyF_ok_iff]
  all_goals simp [*, ite_ok_iff, decodeFamily0_ok_iff, decodeFamily8_ok_iff, decodeFamilyE_ok_iff]

/-- The decoder's only error on a word. -/
theorem decode_error {w : Word} {e : DecodeError} (h : decode w = .error e) : e = .unsupported w := by
  unfold decode decodeFamily0 decodeFamily8 decodeFamilyE decodeFamilyF at h
  repeat' split at h
  all_goals cases h <;> rfl

/-- A word that no row matches is rejected by name, and no other word is (30_encoding.md R85). -/
theorem decode_unsupported_iff {w : Word} :
    decode w = .error (.unsupported w) ↔ ∀ r ∈ opcodeRows, ¬ r.Matches w := by
  have hrow : (∀ r ∈ opcodeRows, ¬ r.Matches w) ↔ ¬ ∃ i, decode w = .ok i := by simp [decode_ok_iff]
  rw [hrow]
  cases hd : decode w with
  | ok i => simp
  | error e => simp [decode_error hd]

/-- Two rows of the table differ in a bit that both masks keep. -/
theorem opcodeRows_pairwise_differ : opcodeRows.Pairwise fun r q => r.bits &&& q.mask ≠ q.bits &&& r.mask := by
  decide

/-- The bits of two rows that one word matches agree where both masks keep them. -/
theorem OpcodeRow.Matches.bits_agree {r q : OpcodeRow} {w : Word} (hr : r.Matches w) (hq : q.Matches w) :
    r.bits &&& q.mask = q.bits &&& r.mask := by
  rw [← hr, ← hq, BitVec.and_assoc, BitVec.and_assoc, BitVec.and_comm r.mask]

/-- Settles O3: the decoder and the rows select by the same fields, and any two rows differ in a bit that both fix. -/
theorem decoderAcceptsExactlyTheTableRows : Obligations.DecoderAcceptsExactlyTheTableRows := by
  refine ⟨fun w => decode_ok_iff, fun w => decode_unsupported_iff.2, ?_⟩
  exact opcodeRows_pairwise_differ.imp fun hne w hr hq => hne (OpcodeRow.Matches.bits_agree hr hq)

end Sys2Proof

namespace Sys2Proof.Machine

/-- `UnsupportedOpcode` is raised at decode, never by an instruction (60_exceptions.md R221). -/
theorem exec_ne_unsupportedOpcode (i : Instr) (s : State) (p w : Word) :
    exec i s ≠ .fault (.unsupportedOpcode p w) := by
  intro h
  rcases exec_eq_fault h with ⟨-, -, hf⟩ | ⟨-, -, hf⟩ | ⟨x, -, -, hf⟩ | ⟨-, hf⟩ <;> cases hf

/-- Settles O18, from everything an instruction step can do. -/
theorem unsupportedOpcodeRaisedExactly : Obligations.UnsupportedOpcodeRaisedExactly := by
  intro s p w hp
  rw [step_idle hp]
  rcases stepInstr_cases s with ⟨hpc, hs⟩ | ⟨hpc, u, -, hu, ⟨e, hd, hs⟩ | ⟨i, hd, hs⟩⟩
  · have : ¬ s.pc.toNat + 1 < memSize := by omega
    simp [hs, this]
  · have hrow : ∀ r ∈ opcodeRows, ¬ r.Matches u := decode_unsupported_iff.1 (decode_error hd ▸ hd)
    constructor
    · intro h
      cases hs.symm.trans h
      exact ⟨rfl, hpc, hu, hrow⟩
    · rintro ⟨rfl, -, hw, -⟩
      rw [hs, hu, hw]
  · constructor
    · intro h
      exact absurd (hs.symm.trans h) (exec_ne_unsupportedOpcode i s.closeLoad p w)
    · rintro ⟨-, -, hw, hrow⟩
      obtain ⟨r, hr, hm⟩ := decode_ok_iff.1 ⟨i, hd⟩
      exact absurd (hw.trans hu.symm ▸ hm) (hrow r hr)

end Sys2Proof.Machine
end

section
/-! PROOFS. The control transfers of 41_flow.md: return and jump. -/

namespace Sys2Proof.Machine

/-! ## Return -/

/-- Settles O21, from the two outcomes of a return and its frame. -/
theorem returnPopsTheStack : Obligations.ReturnPopsTheStack := by
  refine fun s => ⟨exec_ret_empty, fun hs => ?_⟩
  have hret := exec_ret_live hs
  obtain ⟨hframe, -⟩ := writesOnly_of_ret hret
  exact ⟨_, hret, rfl, rfl, hframe⟩

/-! ## Jump -/

/-- A jump always completes (41_flow.md R121). -/
theorem exec_jp (nnn : BitVec 12) (s : State) : exec (.jp nnn) s = .next (s.setPc (zextNNN nnn)) := rfl

theorem State.setPc_self (s : State) : s.setPc s.pc = s := rfl

/-- Settles O22: a jump is one write of the pc, and writing the pc's own value changes nothing. -/
theorem jumpSetsThePc : Obligations.JumpSetsThePc := by
  intro nnn s
  have htarget : (zextNNN nnn).toNat = nnn.toNat := zextNNN_toNat nnn
  refine ⟨_, exec_jp nnn s, htarget, (writesOnly_setPc s _).1, fun hself => ?_⟩
  have hpc : zextNNN nnn = s.pc := BitVec.eq_of_toNat_eq (htarget.trans hself)
  rw [hpc, State.setPc_self]

end Sys2Proof.Machine
end

section
/-! PROOFS. The register instructions of 42_alu.md that write one result and no flag: the two loads, the immediate add
and the three bitwise instructions (R140 to R145). -/

namespace Sys2Proof.Machine

/-! ## A result and nothing else -/

@[simp] theorem State.readV_result_same (s : State) (x : Reg) (r : Byte) : (s.result x r).readV x = r :=
  s.readV_writeV_same x r

@[simp] theorem State.result_pc (s : State) (x : Reg) (r : Byte) : (s.result x r).pc = s.pc + 2 := rfl

/-- An instruction that writes the result `r` to `V[x]` and then does `next`: `Vx` has every property of `r`, and no
other register (VF neither, unless it is `Vx`) and no other element but the pc changes. -/
theorem exists_next_of_result {i : Instr} {s : State} {x : Reg} {r : Byte} (P : Byte → Prop)
    (h : exec i s = .next (s.result x r)) (hr : P r) :
    ∃ t, exec i s = .next t ∧ P (t.readV x) ∧ RegsKeptBut [x] s t ∧ t.pc = s.pc + 2 ∧ KeptBut [.v, .pc] s t := by
  obtain ⟨hframe, hregs⟩ := writesOnly_result s x r
  exact ⟨_, h, (s.readV_result_same x r).symm ▸ hr, hregs, s.result_pc x r, hframe⟩

/-! ## The result of each instruction -/

theorem exec_ldImm (x : Reg) (kk : Byte) (s : State) : exec (.ldImm x kk) s = .next (s.result x kk) := rfl

theorem exec_addImm (x : Reg) (kk : Byte) (s : State) :
    exec (.addImm x kk) s = .next (s.result x (sum8 (s.readV x) kk)) := rfl

theorem exec_ldReg (x y : Reg) (s : State) : exec (.ldReg x y) s = .next (s.result x (s.readV y)) := rfl

theorem exec_orReg (x y : Reg) (s : State) :
    exec (.orReg x y) s = .next (s.result x (s.readV x ||| s.readV y)) := rfl

theorem exec_andReg (x y : Reg) (s : State) :
    exec (.andReg x y) s = .next (s.result x (s.readV x &&& s.readV y)) := rfl

theorem exec_xorReg (x y : Reg) (s : State) :
    exec (.xorReg x y) s = .next (s.result x (s.readV x ^^^ s.readV y)) := rfl

/-! ## The statements -/

/-- Settles O27: the result is the operand itself. -/
theorem loadsWriteTheirOperand : Obligations.LoadsWriteTheirOperand := fun x y kk s =>
  ⟨exists_next_of_result (· = kk) (exec_ldImm x kk s) rfl,
    exists_next_of_result (· = s.readV y) (exec_ldReg x y s) rfl⟩

/-- Settles O28: the result is the sum mod 256, and it is all that is written. -/
theorem addImmediateWrapsWithoutFlag : Obligations.AddImmediateWrapsWithoutFlag := fun x kk s =>
  exists_next_of_result (·.toNat = ((s.readV x).toNat + kk.toNat) % 256) (exec_addImm x kk s)
    (sum8_toNat (s.readV x) kk)

/-- Settles O29, from the bits of `|||`, `&&&` and `^^^`. -/
theorem logicWorksBitByBit : Obligations.LogicWorksBitByBit := by
  refine fun x y s => ⟨?or, ?and, ?xor⟩
  case or =>
    exact exists_next_of_result (fun r => ∀ k, r.getLsbD k = ((s.readV x).getLsbD k || (s.readV y).getLsbD k))
      (exec_orReg x y s) fun _ => BitVec.getLsbD_or
  case and =>
    exact exists_next_of_result (fun r => ∀ k, r.getLsbD k = ((s.readV x).getLsbD k && (s.readV y).getLsbD k))
      (exec_andReg x y s) fun _ => BitVec.getLsbD_and
  case xor =>
    exact exists_next_of_result (fun r => ∀ k, r.getLsbD k = ((s.readV x).getLsbD k ^^ (s.readV y).getLsbD k))
      (exec_xorReg x y s) fun _ => BitVec.getLsbD_xor

end Sys2Proof.Machine
end

section
/-! PROOFS. The index register and the memory transfers of 43_index_memory.md: ADD I, the decimal store, the register
dump and the register load (R171, R173 to R176). -/

namespace Sys2Proof.Machine

/-! ## What each instruction is -/

theorem exec_addI (x : Reg) (s : State) :
    exec (.addI x) s = .next (s.setI (BitVec.ofNat 16 (s.i.toNat + (s.readV x).toNat))).advance := rfl

theorem exec_ldBcd (x : Reg) (s : State) : exec (.ldBcd x) s =
    s.withAccess (2 + 1) (.next (s.writeBytes (s.addrI 0) (bcdDigits (s.readV x))).advance) := rfl

theorem exec_storeRegs (x : Reg) (s : State) : exec (.storeRegs x) s =
    s.withAccess (x.val + 1) (.next ((s.writeBytes (s.addrI 0) (s.regsTo x)).bumpI x).advance) := rfl

theorem exec_loadRegs (x : Reg) (s : State) : exec (.loadRegs x) s =
    s.withAccess (x.val + 1) (.next (({ s with v := s.loadRegsFrom x } : State).bumpI x).advance) := rfl

/-! ## The two outcomes of a transfer

The accesses of a transfer are I to I + n, checked before anything is written (43_index_memory.md R176). -/

section
variable {i : Instr} {s t : State} {n : Nat}

theorem exec_fault_of_outside (hi : exec i s = s.withAccess (n + 1) (.next t)) (h : memSize ≤ s.i.toNat + n) :
    exec i s = .fault (.memoryOutOfBounds s.pc (max s.i.toNat memSize)) :=
  hi.trans (State.withAccess_of_gt n.succ_pos (Nat.lt_succ_of_le h) _)

theorem exec_next_of_inside (hi : exec i s = s.withAccess (n + 1) (.next t)) (h : s.i.toNat + n < memSize) :
    exec i s = .next t :=
  hi.trans (State.withAccess_of_le (.inr h) _)

end

/-! ## A run of bytes stored at I -/

section
variable {s : State} {bs : List Byte}

theorem State.readByte_writeBytes_addrI (hm : s.memWf) (hb : s.i.toNat + bs.length ≤ memSize) (k : Nat)
    (hk : k < bs.length) : (s.writeBytes (s.addrI 0) bs).readByte (s.addrI k) = bs[k] :=
  State.readByte_writeBytes_at hm (s.addrI 0) bs hb k hk

theorem memKeptOutside_writeBytes_addrI (hm : s.memWf) (hb : s.i.toNat + bs.length ≤ memSize) :
    MemKeptOutside (s.addrI 0) bs.length s (s.writeBytes (s.addrI 0) bs) :=
  State.readByte_writeBytes_outside hm (s.addrI 0) bs hb

end

/-- The digits as numbers: each is below 256, so its byte holds the whole of it. -/
theorem bcdDigits_toNat (a : Byte) : (bcdDigits a)[0].toNat = a.toNat / 100 ∧
    (bcdDigits a)[1].toNat = a.toNat / 10 % 10 ∧ (bcdDigits a)[2].toNat = a.toNat % 10 := by
  have ha : a.toNat < 2 ^ 8 := a.isLt
  have hbyte {d : Nat} (hd : d < 2 ^ 8) : (BitVec.ofNat 8 d).toNat = d := by
    rw [BitVec.toNat_ofNat, Nat.mod_eq_of_lt hd]
  exact ⟨hbyte (by omega), hbyte (by omega), hbyte (by omega)⟩

@[simp] theorem State.bumpI_pc (s : State) (x : Reg) : (s.bumpI x).pc = s.pc := rfl

/-- A transfer that passes its check advances I without wrapping (43_index_memory.md R176). -/
theorem State.bumpI_i_toNat {s : State} {x : Reg} (h : s.i.toNat + x.val < memSize) :
    (s.bumpI x).i.toNat = s.i.toNat + x.val + 1 := by
  have hlt : s.i.toNat + x.val + 1 < 2 ^ 16 := lt_of_le_of_lt h (by decide)
  rw [State.bumpI, State.setI_i, BitVec.toNat_ofNat, Nat.mod_eq_of_lt hlt]

/-! ## The statements -/

/-- Settles O36: the only write beside the pc is that of I. -/
theorem addToIndexWraps : Obligations.AddToIndexWraps := by
  intro x s
  have hadd := exec_addI x s
  obtain ⟨hframe, -⟩ := exec_writesOnly hadd
  exact ⟨_, hadd, BitVec.toNat_ofNat _ _, rfl, hframe⟩

/-- Settles O38: the three digits are one run of bytes stored at I. -/
theorem bcdStoresTheDigits : Obligations.BcdStoresTheDigits := by
  refine fun x s hm => ⟨exec_fault_of_outside (exec_ldBcd x s), fun h => ?_⟩
  have hnext := exec_next_of_inside (exec_ldBcd x s) h
  obtain ⟨hframe, -⟩ := exec_writesOnly hnext
  have hfits : s.i.toNat + (bcdDigits (s.readV x)).length ≤ memSize := h
  have hdigit := State.readByte_writeBytes_addrI hm hfits
  obtain ⟨hundreds, tens, ones⟩ := bcdDigits_toNat (s.readV x)
  refine ⟨_, hnext, ?hundreds, ?tens, ?ones, ?kept, ?pc, hframe⟩
  case hundreds => exact (congrArg BitVec.toNat (hdigit 0 (by simp))).trans hundreds
  case tens => exact (congrArg BitVec.toNat (hdigit 1 (by simp))).trans tens
  case ones => exact (congrArg BitVec.toNat (hdigit 2 (by simp))).trans ones
  case kept => exact memKeptOutside_writeBytes_addrI hm hfits
  case pc => simp

/-- Settles O39: V0 to Vx are one run of bytes stored at I. -/
theorem registerDumpStoresV0ToVx : Obligations.RegisterDumpStoresV0ToVx := by
  refine fun x s hm => ⟨exec_fault_of_outside (exec_storeRegs x s), fun h => ?_⟩
  have hnext := exec_next_of_inside (exec_storeRegs x s) h
  obtain ⟨hframe, -⟩ := exec_writesOnly hnext
  have hlen : (s.regsTo x).length = x.val + 1 := s.regsTo_length x
  have hfits : s.i.toNat + (s.regsTo x).length ≤ memSize := by omega
  refine ⟨_, hnext, fun k hk => ?stored, ?kept, ?index, ?pc, hframe⟩
  case stored =>
    have hk : k.val < (s.regsTo x).length := hlen ▸ Nat.lt_succ_of_le hk
    exact (State.readByte_writeBytes_addrI hm hfits k.val hk).trans (s.regsTo_getElem x k.val hk)
  case kept => exact hlen ▸ memKeptOutside_writeBytes_addrI hm hfits
  case index =>
    have hadvance := State.bumpI_i_toNat (s := s.writeBytes (s.addrI 0) (s.regsTo x)) (x := x)
    simpa using hadvance (by simpa using h)
  case pc => simp

/-- Settles O40: register k is byte k at I up to Vx, and keeps its value above. -/
theorem registerLoadReadsV0ToVx : Obligations.RegisterLoadReadsV0ToVx := by
  refine fun x s => ⟨exec_fault_of_outside (exec_loadRegs x s), fun h => ?_⟩
  have hnext := exec_next_of_inside (exec_loadRegs x s) h
  obtain ⟨hframe, -⟩ := exec_writesOnly hnext
  have hload (k : Reg) := s.loadRegsFrom_getElem x k
  exact ⟨_, hnext, fun k hk => (hload k).trans (if_pos hk), fun k hk => (hload k).trans (if_neg (not_le.2 hk)),
    State.bumpI_i_toNat h, rfl, hframe⟩

end Sys2Proof.Machine
end

section
/-! PROOFS. The display instructions and the display export of 44_display.md: CLS (R190), the row-major output and the
dirty flag (R193). -/

namespace Sys2Proof.Machine

/-! ## Clearing the display -/

/-- CLS always completes (44_display.md R190). -/
theorem exec_cls (s : State) : exec .cls s = .next (s.setDisp Display.blank).advance := rfl

theorem decode_cls : decode 0x00E0 = .ok .cls := Laws.DecodeEncode.cls rfl

/-- Settles O43: CLS is one write of the display, which marks it dirty, and it is one of the two instructions whose
STEP reports `display_changed`. -/
theorem clearBlanksTheDisplay : Obligations.ClearBlanksTheDisplay := by
  refine fun s => ⟨?next, fun hf r => ?reply⟩
  case next =>
    have hcls := exec_cls s
    obtain ⟨hframe, -⟩ := exec_writesOnly hcls
    exact ⟨_, hcls, Display.cell_blank, rfl, rfl, hframe⟩
  case reply => exact ⟨_, transact_step_next r hf decode_cls (exec_cls _)⟩

/-! ## The export of the cells -/

/-- The exported cells are the rows of the display, one after another. -/
theorem State.displayOut_cells (s : State) : s.displayOut.1 = s.disp.flatten.toList := by
  simp only [State.displayOut, List.flatMap, Vector.flatten, Vector.toList, Array.toList_flatten, Array.toList_map,
    List.map_map]
  rfl

theorem State.displayOut_length (s : State) : s.displayOut.1.length = 2048 := by
  rw [s.displayOut_cells, Vector.length_toList]

/-- Cell `(x, y)` is element `y * 64 + x` of the export. -/
theorem State.displayOut_getElem? (s : State) (x : Fin 64) (y : Fin 32) :
    s.displayOut.1[y.val * 64 + x.val]? = some (s.disp.cell x y) := by
  have hlt : y.val * 64 + x.val < 32 * 64 := by omega
  have hrow : (y.val * 64 + x.val) / 64 = y.val := by omega
  have hcol : (y.val * 64 + x.val) % 64 = x.val := by omega
  rw [s.displayOut_cells, Vector.getElem?_toList, Vector.getElem?_eq_getElem hlt, Vector.getElem_flatten]
  simp only [hrow, hcol]
  rfl

/-! ## The dirty flag -/

/-- Only the instructions that mark the display may write `dirty` (10_state.md Table R20). -/
theorem marksDisplay_of_dirty_mem {i : Instr} (h : Elem.dirty ∈ writesOf i) : marksDisplay i = true := by
  cases i
  case cls => rfl
  case drw => rfl
  all_goals simp [writesOf] at h

/-- An instruction that marks the display leaves it dirty. -/
theorem exec_marks_dirty {i : Instr} {s t : State} (hi : marksDisplay i = true) (h : exec i s = .next t) :
    t.dirty = true := by
  cases i
  case cls => cases h; rfl
  case drw x y n =>
    obtain ⟨-, h⟩ := State.withAccess_eq_next h
    cases h
    rfl
  all_goals cases hi

/-- An instruction leaves `dirty` alone or sets it. -/
theorem exec_keeps_dirty {i : Instr} {s t : State} (h : exec i s = .next t) (hs : s.dirty = true) :
    t.dirty = true := by
  by_cases hi : marksDisplay i = true
  · exact exec_marks_dirty hi h
  · obtain ⟨hframe, -⟩ := exec_writesOnly h
    exact (hframe .dirty fun hmem => hi (marksDisplay_of_dirty_mem hmem)).trans hs

/-- Settles O46: the export is the flattened display, ACK_DIRTY writes the flag beside it, and no instruction
clears that. -/
theorem displayOutputIsRowMajor : Obligations.DisplayOutputIsRowMajor := by
  refine ⟨fun s => ⟨s.displayOut_length, rfl, s.displayOut_getElem?⟩, fun s => ?ack, fun i s t => exec_keeps_dirty⟩
  case ack => exact ⟨applyAckDirty s, rfl, rfl⟩

end Sys2Proof.Machine
end

section
/-! PROOFS. The timer moves of 45_keypad_timers.md (R203 to R205) and the output `beep` (60_exceptions.md R235). -/

namespace Sys2Proof.Machine

/-! ## What each instruction is -/

theorem exec_ldVxDt (x : Reg) (s : State) : exec (.ldVxDt x) s = .next (s.result x s.dt) := rfl

theorem exec_ldDtVx (x : Reg) (s : State) : exec (.ldDtVx x) s = .next (s.setDt (s.readV x)).advance := rfl

theorem exec_ldStVx (x : Reg) (s : State) : exec (.ldStVx x) s = .next (s.setSt (s.readV x)).advance := rfl

/-! ## The output `beep` -/

theorem State.beep_iff (s : State) : s.beep = true ↔ 0 < s.st.toNat := decide_eq_true_iff

/-! ## The statement -/

/-- Settles O49: the read of the delay timer is one result, the two loads are one write of a timer each, and `beep` is
read off the sound timer just loaded. -/
theorem timerMovesCopyTheByte : Obligations.TimerMovesCopyTheByte := by
  refine fun x s => ⟨?readDelay, ?loadDelay, ?loadSound⟩
  case readDelay => exact exists_next_of_result (· = s.dt) (exec_ldVxDt x s) rfl
  case loadDelay =>
    have hload := exec_ldDtVx x s
    obtain ⟨hframe, -⟩ := exec_writesOnly hload
    exact ⟨_, hload, rfl, rfl, hframe⟩
  case loadSound =>
    have hload := exec_ldStVx x s
    obtain ⟨hframe, -⟩ := exec_writesOnly hload
    exact ⟨_, hload, rfl, rfl, hframe, State.beep_iff _⟩

end Sys2Proof.Machine
end

section
/-! PROOFS. The memory fault of a step (60_exceptions.md R224): at the fetch, or by one of the four instructions that
access memory at I. -/

namespace Sys2Proof.Machine

/-- With the index register at `base`, the instruction accesses a byte at 4096 or above (60_exceptions.md R224, (b) to
(d)). -/
def AccessesOutside (i : Instr) (base : Nat) : Prop :=
  (∃ x y n, i = .drw x y n ∧ 0 < n ∧ memSize ≤ base + n - 1) ∨
  (∃ x, i = .ldBcd x ∧ memSize ≤ base + 2) ∨
  (∃ x : Reg, (i = .storeRegs x ∨ i = .loadRegs x) ∧ memSize ≤ base + x.val)

/-- An instruction that accesses a byte outside memory faults with the lowest address outside. -/
theorem exec_fault_of_accessesOutside {i : Instr} {s : State} (h : AccessesOutside i s.i.toNat) :
    exec i s = .fault (.memoryOutOfBounds s.pc (max s.i.toNat memSize)) := by
  rcases h with ⟨x, y, n, rfl, hn, hout⟩ | ⟨x, rfl, hout⟩ | ⟨x, rfl | rfl, hout⟩
  · exact State.withAccess_of_gt hn (by omega) _
  · exact exec_fault_of_outside (exec_ldBcd x s) hout
  · exact exec_fault_of_outside (exec_storeRegs x s) hout
  · exact exec_fault_of_outside (exec_loadRegs x s) hout

/-- Inversion: an instruction raises `MemoryOutOfBounds` only by an access outside memory. -/
theorem exec_eq_memoryOutOfBounds {i : Instr} {s : State} {p : Word} {a : Nat}
    (h : exec i s = .fault (.memoryOutOfBounds p a)) :
    p = s.pc ∧ a = max s.i.toNat memSize ∧ AccessesOutside i s.i.toNat := by
  rcases exec_eq_fault h with ⟨-, -, hf⟩ | ⟨-, -, hf⟩ | ⟨x, -, -, hf⟩ | ⟨hacc, hf⟩ <;> cases hf
  refine ⟨rfl, rfl, ?_⟩
  rcases hacc with ⟨x, y, n, hi, hn, hout⟩ | ⟨x, hi, hout⟩ | ⟨x, hi, hout⟩
  · exact .inl ⟨x, y, n, hi, hn, by omega⟩
  · exact .inr (.inl ⟨x, hi, by omega⟩)
  · exact .inr (.inr ⟨x, hi, by omega⟩)

theorem exec_memoryOutOfBounds_iff {i : Instr} {s : State} {p : Word} {a : Nat} :
    exec i s = .fault (.memoryOutOfBounds p a) ↔
      p = s.pc ∧ a = max s.i.toNat memSize ∧ AccessesOutside i s.i.toNat := by
  refine ⟨exec_eq_memoryOutOfBounds, ?_⟩
  rintro ⟨rfl, rfl, hout⟩
  exact exec_fault_of_accessesOutside hout

/-- Settles O17, on the outcomes of an instruction step: the fetch's fault, the decoder's, or the instruction's. -/
theorem memoryFaultsRaisedExactly : Obligations.MemoryFaultsRaisedExactly := by
  intro s p a hp
  rw [step_idle hp]
  rcases stepInstr_cases s with ⟨hpc, hs⟩ | ⟨hpc, w, -, rfl, ⟨e, hd, hs⟩ | ⟨i, hd, hs⟩⟩
  · have hfetch : ¬ s.pc.toNat + 1 < memSize := Nat.not_lt.2 hpc
    simp [hs, hpc, hfetch, eq_comm]
  · simp [hs, hd, Nat.not_le.2 hpc]
  · rw [hs, exec_memoryOutOfBounds_iff]
    simp [hd, hpc, Nat.not_le.2 hpc, AccessesOutside]

end Sys2Proof.Machine
end

section
/-! PROOFS. The command DECAY (60_exceptions.md R232) and how long `beep` lasts (R235). -/

namespace Sys2Proof.Machine

/-! ## DECAY -/

theorem applyDecay_dt_toNat (s : State) : (applyDecay s).dt.toNat = s.dt.toNat - 1 := decayed_toNat s.dt

theorem applyDecay_st_toNat (s : State) : (applyDecay s).st.toNat = s.st.toNat - 1 := decayed_toNat s.st

theorem keptBut_applyDecay (s : State) : KeptBut [.dt, .st] s (applyDecay s) :=
  keptBut_of_fields (by simp [Elem.kept, applyDecay, State.readByte, State.readV])

/-- The command DECAY always completes. -/
theorem transact_decay (s : State) : transact .decay s = .ok (.ok, applyDecay s) := rfl

/-! ## The instructions that write a timer -/

theorem exists_eq_ldDtVx_of_dt_mem {i : Instr} (h : Elem.dt ∈ writesOf i) : ∃ x, i = .ldDtVx x := by
  cases i
  case ldDtVx x => exact ⟨x, rfl⟩
  all_goals simp [writesOf] at h

theorem exists_eq_ldStVx_of_st_mem {i : Instr} (h : Elem.st ∈ writesOf i) : ∃ x, i = .ldStVx x := by
  cases i
  case ldStVx x => exact ⟨x, rfl⟩
  all_goals simp [writesOf] at h

/-- An instruction leaves the delay timer alone or loads it. -/
theorem exec_dt {i : Instr} {s t : State} (h : exec i s = .next t) :
    t.dt = s.dt ∨ ∃ x, i = .ldDtVx x ∧ t.dt = s.readV x := by
  by_cases hdt : Elem.dt ∈ writesOf i
  · obtain ⟨x, rfl⟩ := exists_eq_ldDtVx_of_dt_mem hdt
    cases h
    exact .inr ⟨x, rfl, rfl⟩
  · obtain ⟨hframe, -⟩ := exec_writesOnly h
    exact .inl (hframe .dt hdt)

/-- An instruction leaves the sound timer alone or loads it. -/
theorem exec_st {i : Instr} {s t : State} (h : exec i s = .next t) :
    t.st = s.st ∨ ∃ x, i = .ldStVx x ∧ t.st = s.readV x := by
  by_cases hst : Elem.st ∈ writesOf i
  · obtain ⟨x, rfl⟩ := exists_eq_ldStVx_of_st_mem hst
    cases h
    exact .inr ⟨x, rfl, rfl⟩
  · obtain ⟨hframe, -⟩ := exec_writesOnly h
    exact .inl (hframe .st hst)

/-- Settles O51: DECAY is one write of both timers, and an instruction writes a timer only to load it. -/
theorem decayTakesOneFromEachTimer : Obligations.DecayTakesOneFromEachTimer := by
  refine ⟨fun s => ?decay, fun i s t h => ⟨exec_dt h, exec_st h⟩⟩
  case decay =>
    exact ⟨applyDecay s, rfl, applyDecay_dt_toNat s, applyDecay_st_toNat s, keptBut_applyDecay s, transact_decay s⟩

/-! ## Any number of DECAYs -/

/-- A stream of `n` DECAYs always completes, and is `n` times DECAY. -/
theorem serve_replicate_decay (n : Nat) (s : State) :
    serve (List.replicate n .decay) s = .ok (List.replicate n .ok, applyDecay^[n] s) := by
  induction n generalizing s with
  | zero => rfl
  | succ n ih => simp [List.replicate_succ, serve, transact_decay, ih]

/-- `n` DECAYs take `n` from the sound timer, never going below zero. -/
theorem applyDecay_iterate_st_toNat (n : Nat) (s : State) : (applyDecay^[n] s).st.toNat = s.st.toNat - n := by
  induction n with
  | zero => rfl
  | succ n ih => rw [Function.iterate_succ_apply', applyDecay_st_toNat, ih, Nat.sub_sub]

/-- Settles O50: after the load and `n` DECAYs the sound timer holds Vx less `n`, and `beep` says whether that is
positive. -/
theorem beepLastsUntilTheTimerIsZero : Obligations.BeepLastsUntilTheTimerIsZero := by
  refine ⟨State.beep_iff, fun x s => ⟨_, exec_ldStVx x s, fun n => ⟨_, serve_replicate_decay n _, ?_⟩⟩⟩
  rw [State.beep_iff, applyDecay_iterate_st_toNat, State.advance_st, State.setSt_st, Nat.sub_pos_iff_lt]

end Sys2Proof.Machine
end

section
/-! PROOFS. The encoding of 30_encoding.md, sections 3 and 7: the decoder undoes the encoder (R84, R90), and the encoder
the decoder. -/

namespace Sys2Proof

/-! ## The decoder undoes the encoder -/

/-- The law of each instruction, collected over the rows of Table R84. -/
theorem decode_encode : ∀ {i : Instr}, i.wf = true → decode (encode i) = .ok i
  | .cls => Laws.DecodeEncode.cls
  | .ret => Laws.DecodeEncode.ret
  | .jp nnn => Laws.DecodeEncode.jp nnn
  | .call nnn => Laws.DecodeEncode.call nnn
  | .seImm x kk => Laws.DecodeEncode.seImm x kk
  | .sneImm x kk => Laws.DecodeEncode.sneImm x kk
  | .seReg x y => Laws.DecodeEncode.seReg x y
  | .ldImm x kk => Laws.DecodeEncode.ldImm x kk
  | .addImm x kk => Laws.DecodeEncode.addImm x kk
  | .ldReg x y => Laws.DecodeEncode.ldReg x y
  | .orReg x y => Laws.DecodeEncode.orReg x y
  | .andReg x y => Laws.DecodeEncode.andReg x y
  | .xorReg x y => Laws.DecodeEncode.xorReg x y
  | .addReg x y => Laws.DecodeEncode.addReg x y
  | .subReg x y => Laws.DecodeEncode.subReg x y
  | .shr x y => Laws.DecodeEncode.shr x y
  | .subnReg x y => Laws.DecodeEncode.subnReg x y
  | .shl x y => Laws.DecodeEncode.shl x y
  | .sneReg x y => Laws.DecodeEncode.sneReg x y
  | .ldI nnn => Laws.DecodeEncode.ldI nnn
  | .jpV0 nnn => Laws.DecodeEncode.jpV0 nnn
  | .rnd x kk => Laws.DecodeEncode.rnd x kk
  | .drw x y n => Laws.DecodeEncode.drw x y n
  | .skp x => Laws.DecodeEncode.skp x
  | .sknp x => Laws.DecodeEncode.sknp x
  | .ldVxDt x => Laws.DecodeEncode.ldVxDt x
  | .ldVxKey x => Laws.DecodeEncode.ldVxKey x
  | .ldDtVx x => Laws.DecodeEncode.ldDtVx x
  | .ldStVx x => Laws.DecodeEncode.ldStVx x
  | .addI x => Laws.DecodeEncode.addI x
  | .ldFont x => Laws.DecodeEncode.ldFont x
  | .ldBcd x => Laws.DecodeEncode.ldBcd x
  | .storeRegs x => Laws.DecodeEncode.storeRegs x
  | .loadRegs x => Laws.DecodeEncode.loadRegs x

/-- The decoder on bytes reads a word that stands in front as the decoder on words does (30_encoding.md R80). -/
theorem decodeBytes_bytesOfWord {w : Word} {i : Instr} (h : decode w = .ok i) (rest : List Byte) :
    decodeBytes (bytesOfWord w ++ rest) = .ok (i, rest) := by
  simp [bytesOfWord, decodeBytes, h]

/-- Settles O1, from the law of each instruction and the two bytes of a word. -/
theorem encodedInstructionDecodesToItself : Obligations.EncodedInstructionDecodesToItself :=
  fun _ rest hwf => ⟨decode_encode hwf, decodeBytes_bytesOfWord (decode_encode hwf) rest⟩

/-! ## The encoder undoes the decoder -/

/-- The instruction has the word `w`, and is one that has a word. -/
def Instr.HasWord (i : Instr) (w : Word) : Prop := encode i = w ∧ i.wf = true

section
variable {w : Word} {op n : BitVec 4} {kk : Byte}

theorem encodeNNN_of_op (hop : fieldOp w = op) : encodeNNN op (fieldNNN w) = w :=
  hop ▸ encodeNNN_fields w

theorem encodeXKK_of_op (hop : fieldOp w = op) : encodeXKK op (fieldX w) (fieldKK w) = w :=
  hop ▸ encodeXKK_fields w

theorem encodeXKK_of_opKK (hop : fieldOp w = op) (hkk : fieldKK w = kk) : encodeXKK op (fieldX w) kk = w :=
  hkk ▸ encodeXKK_of_op hop

theorem encodeXYN_of_opN (hop : fieldOp w = op) (hn : fieldN w = n) : encodeXYN op (fieldX w) (fieldY w) n = w :=
  hop ▸ hn ▸ encodeXYN_fields w

end

/-- What a choice of the decoder accepts has its word, if what either branch accepts has. -/
theorem hasWord_of_ite {w : Word} {c : Prop} [Decidable c] {a i : Instr} {d : Except DecodeError Instr}
    (h : (if c then .ok a else d) = .ok i) (ha : c → a.HasWord w) (hd : d = .ok i → i.HasWord w) : i.HasWord w := by
  by_cases hc : c
  · rw [if_pos hc] at h
    cases h
    exact ha hc
  · rw [if_neg hc] at h
    exact hd h

theorem hasWord_of_decodeFamily0 {w : Word} {i : Instr} (h : decodeFamily0 w = .ok i) : i.HasWord w :=
  hasWord_of_ite h (fun hw => ⟨hw.symm, rfl⟩) fun h => hasWord_of_ite h (fun hw => ⟨hw.symm, rfl⟩) nofun

theorem hasWord_of_decodeFamily8 {w : Word} {i : Instr} (hop : fieldOp w = 8) (h : decodeFamily8 w = .ok i) :
    i.HasWord w := by
  unfold decodeFamily8 at h
  split at h
  case h_10 => cases h
  all_goals
    rename_i hn
    cases h
    exact ⟨encodeXYN_of_opN hop (BitVec.eq_of_toNat_eq hn), rfl⟩

theorem hasWord_of_decodeFamilyE {w : Word} {i : Instr} (hop : fieldOp w = 0xE) (h : decodeFamilyE w = .ok i) :
    i.HasWord w := by
  unfold decodeFamilyE at h
  repeat' split at h
  all_goals cases h
  all_goals exact ⟨encodeXKK_of_opKK hop ‹_›, rfl⟩

theorem hasWord_of_decodeFamilyF {w : Word} {i : Instr} (hop : fieldOp w = 0xF) (h : decodeFamilyF w = .ok i) :
    i.HasWord w := by
  unfold decodeFamilyF at h
  repeat' split at h
  all_goals cases h
  all_goals exact ⟨encodeXKK_of_opKK hop ‹_›, rfl⟩

/-- Family by family, on the number in `op`: case `h_k` is family `k - 1`. -/
theorem hasWord_of_decode {w : Word} {i : Instr} (h : decode w = .ok i) : i.HasWord w := by
  have hop {k : Nat} (hk : (fieldOp w).toNat = k) : fieldOp w = BitVec.ofNat 4 k := by
    rw [← hk, BitVec.ofNat_toNat, BitVec.setWidth_eq]
  unfold decode at h
  split at h <;> rename_i hk
  case h_1 => exact hasWord_of_decodeFamily0 h
  case h_9 => exact hasWord_of_decodeFamily8 (hop hk) h
  case h_15 => exact hasWord_of_decodeFamilyE (hop hk) h
  case h_16 =>
    have hF : (fieldOp w).toNat = 0xF := by
      have hlt : (fieldOp w).toNat < 16 := (fieldOp w).isLt
      grind
    exact hasWord_of_decodeFamilyF (hop hF) h
  case h_6 => exact hasWord_of_ite h (fun hn => ⟨encodeXYN_of_opN (hop hk) hn, rfl⟩) nofun
  case h_10 => exact hasWord_of_ite h (fun hn => ⟨encodeXYN_of_opN (hop hk) hn, rfl⟩) nofun
  all_goals cases h
  case h_14 =>
    have hn : fieldN w = BitVec.ofNat 4 (fieldN w).toNat := by rw [BitVec.ofNat_toNat, BitVec.setWidth_eq]
    exact ⟨encodeXYN_of_opN (hop hk) hn, decide_eq_true (fieldN w).isLt⟩
  case h_2 => exact ⟨encodeNNN_of_op (hop hk), rfl⟩
  case h_3 => exact ⟨encodeNNN_of_op (hop hk), rfl⟩
  case h_11 => exact ⟨encodeNNN_of_op (hop hk), rfl⟩
  case h_12 => exact ⟨encodeNNN_of_op (hop hk), rfl⟩
  all_goals exact ⟨encodeXKK_of_op (hop hk), rfl⟩

/-- Settles O2, from the fields of a word and the word packed again from them. -/
theorem decodedWordIsTheEncodingOfItsInstruction : Obligations.DecodedWordIsTheEncodingOfItsInstruction :=
  fun _ _ => hasWord_of_decode

/-! ## Sample words -/

/-- Settles O4: the words that decode are each an instruction's word, and the other two match no row. -/
theorem sampleWordsDecodeAsTabulated : Obligations.SampleWordsDecodeAsTabulated := by
  have unsupported {w : Word} (h : ∀ r ∈ opcodeRows, w &&& r.mask ≠ r.bits) : decode w = .error (.unsupported w) :=
    decode_unsupported_iff.2 h
  exact ⟨decode_encode (i := .jp 0x234) rfl, decode_encode (i := .seImm 4 0x12) rfl,
    decode_encode (i := .drw 1 2 15) rfl, decode_encode (i := .addReg 10 11) rfl, unsupported (by decide),
    decode_encode (i := .loadRegs 15) rfl, decode_encode (i := .skp 0) rfl, decode_encode (i := .cls) rfl,
    unsupported (by decide), decode_encode (i := .seReg 10 11) rfl⟩

end Sys2Proof
end

section
/-! PROOFS. The invariant of a run (10_state.md R25): how an instruction moves the pc, what it does to memory and to the
live stack entries, and so every step; and which elements belong to the host (sections 8 and 9). -/

namespace Sys2Proof.Machine

/-! ## What the instructions with several outcomes do when they complete -/

section
variable {s t : State}

theorem exec_ret_eq_next (h : exec .ret s = .next t) :
    0 < s.sp.val ∧ t = { s with sp := ⟨s.sp.val - 1, by omega⟩, pc := s.stack[s.sp.val - 1] } := by
  by_cases hs : 0 < s.sp.val
  · rw [exec_ret_live hs] at h; cases h; exact ⟨hs, rfl⟩
  · rw [exec_ret_empty (by omega)] at h; cases h

theorem exec_call_eq_next {nnn : BitVec 12} (h : exec (.call nnn) s = .next t) : ∃ hs : s.sp.val < 16, t =
    { s with stack := s.stack.set s.sp.val (s.pc + 2), sp := ⟨s.sp.val + 1, by omega⟩, pc := zextNNN nnn } := by
  by_cases hs : s.sp.val < 16
  · rw [exec_call_room hs] at h; cases h; exact ⟨hs, rfl⟩
  · rw [exec_call_full (by omega)] at h; cases h

theorem State.keySkip_eq_next {x : Reg} {level : Bool} (h : s.keySkip x level = .next t) : ∃ c, t = s.skipIf c := by
  rcases s.keySkip_cases x level with ⟨-, hk⟩ | ⟨c, hk⟩ <;> rw [hk] at h <;> cases h
  exact ⟨c, rfl⟩

end

/-! ## How an instruction moves the pc -/

/-- The six instructions that may skip (40_step_cycle.md R105). -/
def IsSkip (i : Instr) : Prop :=
  (∃ x kk, i = .seImm x kk ∨ i = .sneImm x kk) ∨ (∃ x y, i = .seReg x y ∨ i = .sneReg x y) ∨
    ∃ x, i = .skp x ∨ i = .sknp x

/-- A completed instruction moves the pc by `next`, by `skip`, or, while no key is pressed, not at all. -/
def PcMoves (i : Instr) (s t : State) : Prop :=
  t.pc = s.pc + 2 ∨ (t.pc = s.pc + 4 ∧ IsSkip i) ∨
    (t.pc = s.pc ∧ (∃ x, i = .ldVxKey x) ∧ ∀ k : Fin 16, s.keys[k] = false)

theorem pcMoves_skipIf {i : Instr} (hi : IsSkip i) (s : State) (c : Bool) : PcMoves i s (s.skipIf c) := by
  cases c
  · exact .inl rfl
  · exact .inr (.inl ⟨rfl, hi⟩)

theorem pcMoves_of_keySkip {i : Instr} (hi : IsSkip i) {s t : State} {x : Reg} {level : Bool}
    (h : s.keySkip x level = .next t) : PcMoves i s t := by
  obtain ⟨c, rfl⟩ := State.keySkip_eq_next h
  exact pcMoves_skipIf hi s c

theorem pcMoves_of_ldVxKey {x : Reg} {s t : State} (h : exec (.ldVxKey x) s = .next t) : PcMoves (.ldVxKey x) s t := by
  rcases exec_ldVxKey_cases s x with ⟨hnone, hk⟩ | ⟨b, hk⟩ <;> rw [hk] at h <;> cases h
  · exact .inr (.inr ⟨rfl, ⟨x, rfl⟩, hnone⟩)
  · exact .inl rfl

/-- Every instruction but jump, call and return (40_step_cycle.md R105). -/
theorem exec_pcMoves {i : Instr} {s t : State} (h : exec i s = .next t) (hret : i ≠ .ret)
    (hjump : ∀ nnn, i ≠ .jp nnn ∧ i ≠ .call nnn ∧ i ≠ .jpV0 nnn) : PcMoves i s t := by
  cases i
  case ret => exact absurd rfl hret
  case jp nnn => exact absurd rfl (hjump nnn).1
  case call nnn => exact absurd rfl (hjump nnn).2.1
  case jpV0 nnn => exact absurd rfl (hjump nnn).2.2
  case skp x => exact pcMoves_of_keySkip (.inr (.inr ⟨x, .inl rfl⟩)) h
  case sknp x => exact pcMoves_of_keySkip (.inr (.inr ⟨x, .inr rfl⟩)) h
  case ldVxKey x => exact pcMoves_of_ldVxKey h
  case drw x y n =>
    obtain ⟨-, h⟩ := State.withAccess_eq_next h
    cases h; exact .inl rfl
  case ldBcd x =>
    obtain ⟨-, h⟩ := State.withAccess_eq_next h
    cases h; exact .inl (by simp)
  case storeRegs x =>
    obtain ⟨-, h⟩ := State.withAccess_eq_next h
    cases h; exact .inl (by simp)
  case loadRegs x =>
    obtain ⟨-, h⟩ := State.withAccess_eq_next h
    cases h; exact .inl rfl
  all_goals cases h
  case seImm x kk => exact pcMoves_skipIf (.inl ⟨x, kk, .inl rfl⟩) s _
  case sneImm x kk => exact pcMoves_skipIf (.inl ⟨x, kk, .inr rfl⟩) s _
  case seReg x y => exact pcMoves_skipIf (.inr (.inl ⟨x, y, .inl rfl⟩)) s _
  case sneReg x y => exact pcMoves_skipIf (.inr (.inl ⟨x, y, .inr rfl⟩)) s _
  case rnd x kk => exact .inl (congrArg (· + 2) ((writesOnly_drawRnd s).1 .pc (by simp)))
  all_goals exact .inl rfl

/-- Settles O11, from how an instruction moves the pc. -/
theorem pcMovesByNextOrSkip : Obligations.PcMovesByNextOrSkip :=
  fun _ _ _ => exec_pcMoves

/-! ## Canonical memory -/

/-- The data of memory, not only what it reads as, stays under an instruction that stores nothing. -/
theorem exec_mem {i : Instr} {s t : State} (h : exec i s = .next t) (hi : Elem.mem ∉ writesOf i) : t.mem = s.mem := by
  cases i
  case ldBcd x => exact absurd (List.mem_cons_self ..) hi
  case storeRegs x => exact absurd (List.mem_cons_self ..) hi
  case ret => obtain ⟨-, rfl⟩ := exec_ret_eq_next h; rfl
  case call nnn => obtain ⟨-, rfl⟩ := exec_call_eq_next h; rfl
  case skp x => obtain ⟨c, rfl⟩ := State.keySkip_eq_next h; exact s.skipIf_mem c
  case sknp x => obtain ⟨c, rfl⟩ := State.keySkip_eq_next h; exact s.skipIf_mem c
  case ldVxKey x => rcases exec_ldVxKey_cases s x with ⟨-, hk⟩ | ⟨b, hk⟩ <;> cases hk.symm.trans h <;> rfl
  case drw x y n =>
    obtain ⟨-, h⟩ := State.withAccess_eq_next h
    cases h; rfl
  case loadRegs x =>
    obtain ⟨-, h⟩ := State.withAccess_eq_next h
    cases h; rfl
  case rnd x kk => cases hr : s.rndIn <;> cases h <;> simp [State.result, State.drawRnd, hr]
  all_goals cases h
  case seImm x kk => exact s.skipIf_mem _
  case sneImm x kk => exact s.skipIf_mem _
  case seReg x y => exact s.skipIf_mem _
  case sneReg x y => exact s.skipIf_mem _
  all_goals rfl

/-- No instruction writes the machine's parameters, the keys or the host's queue (10_state.md Table R20). -/
theorem exec_keeps_host {i : Instr} {s t : State} (h : exec i s = .next t) : t.cfg = s.cfg ∧ t.keys = s.keys := by
  obtain ⟨hframe, -⟩ := exec_writesOnly h
  exact ⟨hframe .cfg (by cases i <;> simp [writesOf]), hframe .keys (by cases i <;> simp [writesOf])⟩

/-- An access of a completing instruction is in bounds, so its stores keep memory canonical. -/
theorem exec_keeps_memWf {i : Instr} {s t : State} (hm : s.memWf) (h : exec i s = .next t) : t.memWf := by
  by_cases hi : Elem.mem ∈ writesOf i
  · cases i
    case ldBcd x =>
      obtain ⟨hin, h⟩ := State.withAccess_eq_next h
      cases h
      exact State.memWf_writeBytes hm (s.addrI 0) _ (hin.resolve_left (by simp))
    case storeRegs x =>
      obtain ⟨hin, h⟩ := State.withAccess_eq_next h
      cases h
      have hfits : s.i.toNat + (s.regsTo x).length ≤ memSize := by
        rw [s.regsTo_length]
        exact hin.resolve_left (by simp)
      exact State.memWf_writeBytes hm (s.addrI 0) _ hfits
    all_goals simp [writesOf] at hi
  · rw [State.memWf, (exec_keeps_host h).1, exec_mem h hi]
    exact hm

/-! ## The pc and the live stack entries -/

/-- Where a word can be fetched, the pc does not wrap. -/
theorem toNat_pc_add {pc : Word} (hpc : pc.toNat + 1 < memSize) :
    (pc + 2).toNat = pc.toNat + 2 ∧ (pc + 4).toNat = pc.toNat + 4 := by
  have hlt : pc.toNat < 4095 := Nat.lt_sub_of_add_lt hpc
  constructor <;> bv_omega

/-- `next` and `skip` from a word that can be fetched lead to 0x1002 at most. -/
theorem PcMoves.le {i : Instr} {s t : State} (h : PcMoves i s t) (hpc : s.pc.toNat + 1 < memSize) :
    t.pc.toNat ≤ 0x1002 := by
  have hlt : s.pc.toNat < 4095 := Nat.lt_sub_of_add_lt hpc
  obtain ⟨hnext, hskip⟩ := toNat_pc_add hpc
  rcases h with h | ⟨h, -⟩ | ⟨h, -⟩ <;> rw [h] <;> omega

/-- No live stack entry is above 0x1000, the highest address that a call pushes (10_state.md R25). -/
def State.StackBounded (s : State) : Prop := ∀ k : Fin 16, k.val < s.sp.val → s.stack[k].toNat ≤ 0x1000

/-- An instruction other than call and return leaves the call stack alone. -/
theorem exec_keeps_stack {i : Instr} {s t : State} (h : exec i s = .next t) (hret : i ≠ .ret)
    (hcall : ∀ nnn, i ≠ .call nnn) : t.stack = s.stack ∧ t.sp = s.sp := by
  obtain ⟨hframe, -⟩ := exec_writesOnly h
  refine ⟨hframe .stack ?_, hframe .sp ?_⟩ <;> cases i <;> simp_all [writesOf]

/-- A return pops a live entry. -/
theorem stackBounded_of_ret {s t : State} (hb : s.StackBounded) (h : exec .ret s = .next t) :
    t.StackBounded ∧ t.pc.toNat ≤ 0x1000 := by
  obtain ⟨hs, rfl⟩ := exec_ret_eq_next h
  have htop : s.sp.val - 1 < s.sp.val := Nat.sub_one_lt hs.ne'
  exact ⟨fun k hk => hb k (hk.trans htop), hb ⟨s.sp.val - 1, by omega⟩ htop⟩

/-- The pushed address is that of the next word, at most 0x1000 where a word can be fetched. -/
theorem stackBounded_of_call {nnn : BitVec 12} {s t : State} (hb : s.StackBounded) (hpc : s.pc.toNat + 1 < memSize)
    (h : exec (.call nnn) s = .next t) : t.StackBounded ∧ t.pc = zextNNN nnn := by
  obtain ⟨hs, rfl⟩ := exec_call_eq_next h
  refine ⟨fun k hk => ?_, rfl⟩
  by_cases hk' : k.val = s.sp.val
  · have hpushed : (s.stack.set s.sp.val (s.pc + 2))[k] = s.pc + 2 := by simp [hk']
    have hle : (s.pc + 2).toNat ≤ 0x1000 := (toNat_pc_add hpc).1.trans_le hpc
    exact (congrArg BitVec.toNat hpushed).trans_le hle
  · have hother : (s.stack.set s.sp.val (s.pc + 2))[k] = s.stack[k] := by simp [Ne.symm hk']
    have hlive : k.val < s.sp.val := Nat.lt_of_le_of_ne (Nat.le_of_lt_succ hk) hk'
    exact (congrArg BitVec.toNat hother).trans_le (hb k hlive)

theorem zextNNN_le (nnn : BitVec 12) : (zextNNN nnn).toNat ≤ 0xFFF :=
  (zextNNN_toNat nnn).trans_le (Nat.le_of_lt_succ nnn.isLt)

/-- The target of `Bnnn` is a sum of 12 bits and 8, so it does not wrap (41_flow.md R127). -/
theorem jpV0_target_toNat (nnn : BitVec 12) (b : Byte) : (zextNNN nnn + zextByte b).toNat = nnn.toNat + b.toNat := by
  have hn : nnn.toNat < 2 ^ 12 := nnn.isLt
  have hb : b.toNat < 2 ^ 8 := b.isLt
  rw [BitVec.toNat_add, zextNNN_toNat, zextByte_toNat, Nat.mod_eq_of_lt (by omega)]

/-! ## The invariant -/

/-- An instruction that a STEP can fetch keeps the invariant. -/
theorem exec_keeps_inv {i : Instr} {s t : State} (hs : Inv s) (hpc : s.pc.toNat + 1 < memSize)
    (h : exec i s = .next t) : Inv t := by
  obtain ⟨hm, -, hb⟩ := hs
  refine ⟨exec_keeps_memWf hm h, ?_⟩
  by_cases hret : i = .ret
  · subst hret
    obtain ⟨hb', hpc'⟩ := stackBounded_of_ret hb h
    exact ⟨by omega, hb'⟩
  by_cases hcall : ∃ nnn, i = .call nnn
  · obtain ⟨nnn, rfl⟩ := hcall
    obtain ⟨hb', hpc'⟩ := stackBounded_of_call hb hpc h
    have hle := zextNNN_le nnn
    exact ⟨by rw [hpc']; omega, hb'⟩
  rw [not_exists] at hcall
  obtain ⟨hstack, hsp⟩ := exec_keeps_stack h hret hcall
  refine ⟨?_, by rw [hstack, hsp]; exact hb⟩
  by_cases hjp : ∃ nnn, i = .jp nnn
  · obtain ⟨nnn, rfl⟩ := hjp
    cases h
    exact (zextNNN_le nnn).trans (by decide)
  by_cases hjpV0 : ∃ nnn, i = .jpV0 nnn
  · obtain ⟨nnn, rfl⟩ := hjpV0
    cases h
    have hn : nnn.toNat < 2 ^ 12 := nnn.isLt
    have hv : (s.readV 0).toNat < 2 ^ 8 := (s.readV 0).isLt
    exact (jpV0_target_toNat nnn (s.readV 0)).trans_le (by omega)
  rw [not_exists] at hjp hjpV0
  exact ((exec_pcMoves h hret fun nnn => ⟨hjp nnn, hcall nnn, hjpV0 nnn⟩).le hpc).trans (by decide)

theorem stepInstr_keeps_inv {s t : State} (hs : Inv s) (h : stepInstr s = .next t) : Inv t := by
  obtain ⟨hpc, w, i, -, -, he⟩ := stepInstr_eq_next h
  exact exec_keeps_inv (s := s.closeLoad) hs hpc he

/-- The largest ROM ends where memory does. -/
theorem progBase_add_le {rom : List Byte} (hl : rom.length ≤ romMax) : progBase + rom.length ≤ memSize :=
  Nat.add_le_add_left hl progBase

/-- A LOAD that completes stores its ROM inside memory. -/
theorem applyLoad_keeps_inv {rom : List Byte} {s t : State} (hs : Inv s) (h : applyLoad rom s = .next t) : Inv t := by
  obtain ⟨-, hlen, rfl⟩ := applyLoad_eq_next h
  obtain ⟨hm, hpc, hb⟩ := hs
  refine ⟨State.memWf_writeBytes hm progBase rom (progBase_add_le hlen), ?_⟩
  simpa using And.intro hpc hb

theorem applyCommand_keeps_inv {c : Command} {s t : State} (hs : Inv s) (h : applyCommand c s = .next t) : Inv t := by
  cases c
  case load rom => exact applyLoad_keeps_inv hs h
  case step r =>
    obtain ⟨u, hu, rfl⟩ := stepWith_eq_next h
    have hInv : Inv u := stepInstr_keeps_inv (s := { s with rndIn := r :: s.rndIn }) hs hu
    exact hInv
  all_goals cases h
  case reset => exact inv_resetWith s.cfg
  all_goals exact hs

/-- Settles O12, on the host's queue: an instruction step, or the command that waits. -/
theorem stepKeepsTheInvariant : Obligations.StepKeepsTheInvariant := by
  intro s t hs h
  cases hp : s.pending with
  | nil => exact stepInstr_keeps_inv hs (step_idle hp ▸ h)
  | cons c rest => exact applyCommand_keeps_inv (s := { s with pending := rest }) hs (step_command hp ▸ h)

end Sys2Proof.Machine
end

section
/-! PROOFS. The step of 40_step_cycle.md sections 1 and 2: the STEP command with its reply, the host's queue, and the
faults of 60_exceptions.md sections 1 and 2. -/

namespace Sys2Proof.Machine

/-! ## One step: the instruction at the pc, or the waiting command -/

/-- Settles O5: with an empty queue the step runs the decoded instruction. -/
theorem stepRunsTheDecodedInstruction : Obligations.StepRunsTheDecodedInstruction :=
  fun _ _ hp hpc hd => (step_idle hp).trans (stepInstr_exec (State.fetch_ok hpc) hd)

/-- Settles O6: the command that waits is served. -/
theorem stepServesTheWaitingCommandFirst : Obligations.StepServesTheWaitingCommandFirst :=
  fun _ _ _ => step_command

/-! ## The STEP command -/

theorem marksDisplay_iff {i : Instr} : marksDisplay i = true ↔ i = .cls ∨ ∃ x y n, i = .drw x y n := by
  cases i <;> simp [marksDisplay]

/-- Only the instructions that mark the display may write its cells (10_state.md Table R20). -/
theorem marksDisplay_of_disp_mem {i : Instr} (h : Elem.disp ∈ writesOf i) : marksDisplay i = true := by
  cases i
  case cls => rfl
  case drw => rfl
  all_goals simp [writesOf] at h

/-- Settles O7, on the outcomes of a STEP in their order: the fetch's, the decoder's, the instruction's. -/
theorem stepFollowsTheCycle : Obligations.StepFollowsTheCycle := by
  refine fun s r => ⟨transact_step_fetchFault r, fun hpc w hw => ?_⟩
  have hf : s.fetch = .ok w := hw ▸ State.fetch_ok hpc
  refine ⟨fun e hd => transact_step_unsupported r hf hd, fun i hd => ⟨fun f => transact_step_fault r hf hd, ?_⟩⟩
  intro t h
  have hdirty := exec_keeps_dirty h
  refine ⟨⟨_, transact_step_next r hf hd h, marksDisplay_iff⟩, (exec_keeps_host h).2, hdirty, ?delay, ?sound⟩
  case delay => exact fun hi => (exec_dt h).resolve_right fun ⟨x, hx, _⟩ => hi x hx
  case sound => exact fun hi => (exec_st h).resolve_right fun ⟨x, hx, _⟩ => hi x hx

/-- Settles O8: a STEP has `display_changed` when its instruction is one that marks the display. -/
theorem displayChangedMatchesDirty : Obligations.DisplayChangedMatchesDirty := by
  intro s r b t h
  rcases transact_step_cases h with ⟨f, hf, -⟩ | ⟨i, w, u, -, -, he, rfl, hb⟩
  · cases hf
  · cases hb
    obtain ⟨hframe, -⟩ := exec_writesOnly he
    have hmarks (hi : marksDisplay i = true) : u.dirty = true := exec_marks_dirty hi he
    refine ⟨hmarks, fun hi => ⟨hframe .dirty fun hmem => ?_, hframe .disp fun hmem => ?_⟩⟩
    · simp [marksDisplay_of_dirty_mem hmem] at hi
    · simp [marksDisplay_of_disp_mem hmem] at hi

/-! ## A faulted command leaves the state, and a faulted STEP faults again -/

/-- The transaction of a command ends with a fault exactly when the command does. -/
theorem transact_eq_fault_iff {c : Command} {s t : State} {f : Fault} :
    transact c s = .ok (.fault f, t) ↔ applyCommand c s = .fault f ∧ t = afterFault c s := by
  cases h : applyCommand c s with
  | next u => cases c <;> simp [transact, h, okReply]
  | fault g => simp [transact, h, eq_comm]
  | refused q => simp [transact, h]

theorem keptBut_afterFault (c : Command) (s : State) : KeptBut [.loadOpen] s (afterFault c s) := by
  cases c
  case step r => exact keptBut_of_fields (by simp [Elem.kept, afterFault])
  all_goals exact .refl _ s

theorem stepWith_eq_fault_iff {r : Byte} {s : State} {f : Fault} :
    stepWith r s = .fault f ↔ stepInstr { s with rndIn := r :: s.rndIn } = .fault f := by
  unfold stepWith
  split <;> simp [*]

/-- A fault of an instruction does not come from the supply of random bytes: `Cxkk` has none, and no other instruction
looks at the supply. -/
theorem exec_fault_withRndIn {i : Instr} {s : State} {f : Fault} (h : exec i s = .fault f) (l : List Byte) :
    exec i { s with rndIn := l } = .fault f := by
  by_cases hi : ∃ x kk, i = .rnd x kk
  · obtain ⟨x, kk, rfl⟩ := hi
    cases h
  · simp only [not_exists] at hi
    rw [exec_withRndIn i hi, h]

/-- An instruction step that faulted faults again, whatever the supply of random bytes and whether LOAD is open. -/
theorem stepInstr_fault_again {s : State} {f : Fault} (h : stepInstr s = .fault f) (l : List Byte) (b : Bool) :
    stepInstr { s with rndIn := l, loadOpen := b } = .fault f := by
  have hfetch : ({ s with rndIn := l, loadOpen := b } : State).fetch = s.fetch := State.fetch_congr rfl rfl rfl
  rcases stepInstr_cases s with ⟨hpc, hs⟩ | ⟨-, w, hf, -, ⟨e, hd, hs⟩ | ⟨i, hd, hs⟩⟩ <;> rw [hs] at h
  · rw [← h]
    exact stepInstr_fetchFault hpc
  · rw [← h]
    exact stepInstr_unsupported (hfetch.trans hf) hd
  · rw [stepInstr_exec (hfetch.trans hf) hd]
    exact exec_fault_withRndIn h l

/-- Settles O9: a fault's state is the one before it up to `loadOpen`, on which no instruction step depends. -/
theorem faultsChangeNothingAndRepeat : Obligations.FaultsChangeNothingAndRepeat := by
  refine ⟨fun s t c f h => ?kept, fun s t r r' f h => ?again⟩ <;> obtain ⟨hf, rfl⟩ := transact_eq_fault_iff.1 h
  case kept => exact keptBut_afterFault c s
  case again =>
    have hs : stepInstr { s with rndIn := r :: s.rndIn } = .fault f := stepWith_eq_fault_iff.1 hf
    exact transact_eq_fault_iff.2 ⟨stepWith_eq_fault_iff.2 (stepInstr_fault_again hs _ false), rfl⟩

/-! ## When each fault is raised -/

/-- Settles O16, from the faults of an instruction and the two instructions that use the call stack. -/
theorem stackFaultsRaisedExactly : Obligations.StackFaultsRaisedExactly := by
  refine fun i s p => ⟨⟨fun h => ?_, ?_⟩, ⟨fun h => ?_, ?_⟩, fun r t f _ h => (transact_eq_fault_iff.1 h).2⟩
  · rcases exec_eq_fault h with ⟨-, -, hf⟩ | ⟨hi, hs, hf⟩ | ⟨x, -, -, hf⟩ | ⟨-, hf⟩ <;> cases hf
    exact ⟨hi, hs, rfl⟩
  · rintro ⟨⟨nnn, rfl⟩, hs, rfl⟩
    exact exec_call_full hs
  · rcases exec_eq_fault h with ⟨hi, hs, hf⟩ | ⟨-, -, hf⟩ | ⟨x, -, -, hf⟩ | ⟨-, hf⟩ <;> cases hf
    exact ⟨hi, hs, rfl⟩
  · rintro ⟨rfl, hs, rfl⟩
    exact exec_ret_empty hs

theorem exec_eq_keyIndexOutOfRange_iff {i : Instr} {s : State} {p : Word} {b : Byte} :
    exec i s = .fault (.keyIndexOutOfRange p b) ↔
      p = s.pc ∧ ∃ x, (i = .skp x ∨ i = .sknp x) ∧ 15 < (s.readV x).toNat ∧ b = s.readV x := by
  constructor
  · intro h
    rcases exec_eq_fault h with ⟨-, -, hf⟩ | ⟨-, -, hf⟩ | ⟨x, hi, hx, hf⟩ | ⟨-, hf⟩ <;> cases hf
    exact ⟨rfl, x, hi, hx, rfl⟩
  · rintro ⟨rfl, x, rfl | rfl, hx, rfl⟩
    · exact State.keySkip_outOfRange hx true
    · exact State.keySkip_outOfRange hx false

/-- A fault that a STEP can end with: every kind but the one of LOAD (60_exceptions.md Table R220). -/
def Fault.OfStep (f : Fault) : Prop := f.code = 1 ∨ f.code = 2 ∨ f.code = 3 ∨ f.code = 4 ∨ f.code = 6

theorem exec_fault_ofStep {i : Instr} {s : State} {f : Fault} (h : exec i s = .fault f) : f.OfStep := by
  rcases exec_eq_fault h with ⟨-, -, rfl⟩ | ⟨-, -, rfl⟩ | ⟨x, -, -, rfl⟩ | ⟨-, rfl⟩ <;> simp [Fault.OfStep, Fault.code]

/-- An instruction step completes or ends with a fault of STEP. -/
theorem stepInstr_completes_or_faults (s : State) :
    (∃ t, stepInstr s = .next t) ∨ ∃ f, stepInstr s = .fault f ∧ f.OfStep := by
  rcases stepInstr_cases s with ⟨-, hs⟩ | ⟨-, w, -, -, ⟨e, -, hs⟩ | ⟨i, -, hs⟩⟩ <;> rw [hs]
  · exact .inr ⟨_, rfl, by simp [Fault.OfStep, Fault.code]⟩
  · exact .inr ⟨_, rfl, by simp [Fault.OfStep, Fault.code]⟩
  · cases he : exec i s.closeLoad with
    | next t => exact .inl ⟨t, rfl⟩
    | fault f => exact .inr ⟨f, rfl, exec_fault_ofStep he⟩
    | refused q => exact absurd he (exec_not_refused i s.closeLoad q)

/-- The one command that raises `RomTooLarge` is LOAD (60_exceptions.md R226). -/
theorem stepInstr_ne_romTooLarge (s : State) (n : Nat) : stepInstr s ≠ .fault (.romTooLarge n) := by
  intro h
  rcases stepInstr_completes_or_faults s with ⟨t, hs⟩ | ⟨f, hs, hf⟩ <;> cases hs.symm.trans h
  simp [Fault.OfStep, Fault.code] at hf

theorem applyLoad_eq_fault_iff {rom : List Byte} {s : State} {f : Fault} :
    applyLoad rom s = .fault f ↔ s.loadOpen = true ∧ romMax < rom.length ∧ f = .romTooLarge rom.length := by
  constructor
  · intro h
    cases ho : s.loadOpen with
    | false => cases (applyLoad_refused ho).symm.trans h
    | true =>
      by_cases hl : romMax < rom.length
      · cases (applyLoad_tooLarge ho hl).symm.trans h
        exact ⟨rfl, hl, rfl⟩
      · cases (applyLoad_ok ho (Nat.not_lt.1 hl)).symm.trans h
  · rintro ⟨ho, hl, rfl⟩
    exact applyLoad_tooLarge ho hl

/-- Settles O19: the key fault is one of an instruction, the ROM fault one of the command LOAD. -/
theorem keyAndRomFaultsRaisedExactly : Obligations.KeyAndRomFaultsRaisedExactly := by
  refine ⟨fun i s p b => exec_eq_keyIndexOutOfRange_iff, fun c s n => ⟨fun h => ?_, ?_⟩⟩
  · cases c
    case load rom =>
      obtain ⟨ho, hl, hf⟩ := applyLoad_eq_fault_iff.1 h
      cases hf
      exact ⟨ho, rom, rfl, hl, rfl⟩
    case step r => exact absurd (stepWith_eq_fault_iff.1 h) (stepInstr_ne_romTooLarge _ n)
    all_goals cases h
  · rintro ⟨ho, rom, rfl, hl, rfl⟩
    exact applyLoad_tooLarge ho hl

/-- Settles O20, from the outcomes of an instruction step. -/
theorem stepCompletesOrFaults : Obligations.StepCompletesOrFaults := by
  intro s hp
  rw [step_idle hp]
  exact stepInstr_completes_or_faults s

/-! ## What belongs to the host -/

/-- An instruction step neither changes the parameters or the keys nor clears `dirty`. -/
theorem stepInstr_keeps_host {s t : State} (h : stepInstr s = .next t) :
    t.cfg = s.cfg ∧ t.keys = s.keys ∧ (s.dirty = true → t.dirty = true) := by
  obtain ⟨-, w, i, -, -, he⟩ := stepInstr_eq_next h
  obtain ⟨hcfg, hkeys⟩ := exec_keeps_host he
  have hdirty := exec_keeps_dirty he
  exact ⟨hcfg, hkeys, hdirty⟩

/-- The commands that change the keys or clear `dirty` (40_step_cycle.md section 3). -/
theorem applyCommand_host {c : Command} {s t : State} (h : applyCommand c s = .next t) :
    t.cfg = s.cfg ∧ (t.keys = s.keys ∨ c = .reset ∨ c = .setKeys t.keys) ∧
      (s.dirty = true → t.dirty = true ∨ c = .reset ∨ c = .ackDirty) := by
  cases c
  case load rom =>
    obtain ⟨-, -, rfl⟩ := applyLoad_eq_next h
    exact ⟨by simp, .inl (by simp), fun hs => .inl (by simpa using hs)⟩
  case step r =>
    obtain ⟨u, hu, rfl⟩ := stepWith_eq_next h
    obtain ⟨hcfg, hkeys, hdirty⟩ := stepInstr_keeps_host hu
    exact ⟨hcfg, .inl hkeys, fun hs => .inl (hdirty hs)⟩
  all_goals cases h
  case reset => exact ⟨rfl, .inr (.inl rfl), fun _ => .inr (.inl rfl)⟩
  case setKeys k => exact ⟨rfl, .inr (.inr rfl), .inl⟩
  case decay => exact ⟨rfl, .inl rfl, .inl⟩
  case ackDirty => exact ⟨rfl, .inl rfl, fun _ => .inr (.inr rfl)⟩

/-- Settles O14, on the host's queue. -/
theorem onlyTheHostChangesKeysAndClearsDirty : Obligations.OnlyTheHostChangesKeysAndClearsDirty := by
  intro s t h
  cases hp : s.pending with
  | nil =>
    obtain ⟨hcfg, hkeys, hdirty⟩ := stepInstr_keeps_host (step_idle hp ▸ h)
    exact ⟨hcfg, fun hne => absurd hkeys hne, fun hs ht => absurd (hdirty hs) (by simp [ht])⟩
  | cons c rest =>
    obtain ⟨hcfg, hkeys, hdirty⟩ := applyCommand_host (step_command hp ▸ h)
    refine ⟨hcfg, fun hne => ⟨rest, ?keys⟩, fun hs ht => ⟨rest, ?dirty⟩⟩
    case keys =>
      rcases hkeys.resolve_left hne with rfl | rfl
      · exact .inl rfl
      · exact .inr ⟨_, rfl, rfl⟩
    case dirty =>
      rcases (hdirty hs).resolve_left (by simp [ht]) with rfl | rfl
      · exact .inl rfl
      · exact .inr rfl

end Sys2Proof.Machine
end

section
/-! PROOFS. The write-only state of 10_state.md section 12 (R33): two states that differ in the sound timer, the dirty
flag and the dead stack entries only are not told apart by any instruction. -/

namespace Sys2Proof.Machine

/-! ## Two states that a program cannot tell apart -/

/-- The states differ in the sound timer, the dirty flag and the dead stack entries only. -/
def Alike (s s' : State) : Prop :=
  ∃ a d k, s' = { s with st := a, dirty := d, stack := k } ∧ ∀ j : Fin 16, j.val < s.sp.val → k[j] = s.stack[j]

/-- Two outcomes of one kind: the same fault or refusal, or next states alike. -/
def AlikeOutcome : Result → Result → Prop
  | .next t, .next t' => Alike t t'
  | .fault f, .fault f' => f = f'
  | .refused q, .refused q' => q = q'
  | _, _ => False

theorem alikeOutcome_next {t t' : State} (h : Alike t t') : AlikeOutcome (.next t) (.next t') := h

theorem AlikeOutcome.of_fault {f : Fault} : ∀ {r' : Result}, AlikeOutcome (.fault f) r' → r' = .fault f
  | .fault _, h => congrArg Host.Outcome.fault h.symm

theorem AlikeOutcome.of_next {t : State} : ∀ {r' : Result}, AlikeOutcome (.next t) r' → ∃ t', r' = .next t' ∧ Alike t t'
  | .next t', h => ⟨t', rfl, h⟩

/-! ## The shared operations -/

section
variable {s s' : State}

theorem Alike.advance (h : Alike s s') : Alike s.advance s'.advance := by
  obtain ⟨a, d, k, rfl, hk⟩ := h
  exact ⟨a, d, k, rfl, hk⟩

theorem Alike.bumpI (h : Alike s s') (x : Reg) : Alike (s.bumpI x) (s'.bumpI x) := by
  obtain ⟨a, d, k, rfl, hk⟩ := h
  exact ⟨a, d, k, rfl, hk⟩

theorem Alike.skipIf (h : Alike s s') (c : Bool) : Alike (s.skipIf c) (s'.skipIf c) := by
  obtain ⟨a, d, k, rfl, hk⟩ := h
  cases c <;> exact ⟨a, d, k, rfl, hk⟩

theorem Alike.writeBytes (h : Alike s s') (base : Nat) (bs : List Byte) :
    Alike (s.writeBytes base bs) (s'.writeBytes base bs) := by
  induction bs generalizing s s' base with
  | nil => exact h
  | cons b bs ih =>
    obtain ⟨a, d, k, rfl, hk⟩ := h
    exact ih (s := s.writeByte base b) ⟨a, d, k, rfl, hk⟩ (base + 1)

theorem Alike.withAccess (h : Alike s s') (count : Nat) {r r' : Result} (hr : AlikeOutcome r r') :
    AlikeOutcome (s.withAccess count r) (s'.withAccess count r') := by
  obtain ⟨a, d, k, rfl, hk⟩ := h
  unfold State.withAccess
  cases firstOutside s.i.toNat count
  · exact hr
  · rfl

theorem Alike.keySkip (h : Alike s s') (x : Reg) (level : Bool) :
    AlikeOutcome (s.keySkip x level) (s'.keySkip x level) := by
  have halike := h
  obtain ⟨a, d, k, rfl, hk⟩ := h
  by_cases hx : 15 < (s.readV x).toNat
  · rw [State.keySkip_outOfRange hx, State.keySkip_outOfRange (by exact hx)]
    rfl
  · have hkey : (s.readV x).toNat = (⟨(s.readV x).toNat, by omega⟩ : Fin 16).val := rfl
    rw [State.keySkip_key hkey, State.keySkip_key (by exact hkey)]
    exact halike.skipIf _

/-- A return reads the newest live entry, which is the same in both states. -/
theorem Alike.ret (h : Alike s s') : AlikeOutcome (exec .ret s) (exec .ret s') := by
  obtain ⟨a, d, k, rfl, hk⟩ := h
  by_cases hs : 0 < s.sp.val
  · have hlt : s.sp.val - 1 < s.sp.val := Nat.sub_one_lt hs.ne'
    have htop : k[s.sp.val - 1] = s.stack[s.sp.val - 1] := hk ⟨s.sp.val - 1, by omega⟩ hlt
    rw [exec_ret_live hs, exec_ret_live (by exact hs)]
    simp only [htop]
    exact ⟨a, d, k, rfl, fun j hj => hk j (hj.trans hlt)⟩
  · have hs : s.sp.val = 0 := by omega
    rw [exec_ret_empty hs, exec_ret_empty (by exact hs)]
    rfl

/-- A call writes the entry that becomes live. -/
theorem Alike.call (h : Alike s s') (nnn : BitVec 12) : AlikeOutcome (exec (.call nnn) s) (exec (.call nnn) s') := by
  obtain ⟨a, d, k, rfl, hk⟩ := h
  by_cases hs : s.sp.val < 16
  · rw [exec_call_room hs, exec_call_room (by exact hs)]
    refine ⟨a, d, k.set s.sp.val (s.pc + 2), rfl, fun j hj => ?_⟩
    by_cases hj' : j.val = s.sp.val
    · simp [hj']
    · have hlive : j.val < s.sp.val := Nat.lt_of_le_of_ne (Nat.le_of_lt_succ hj) hj'
      simpa [Ne.symm hj'] using hk j hlive
  · have hs : s.sp.val = 16 := by omega
    rw [exec_call_full hs, exec_call_full (by exact hs)]
    rfl

theorem Alike.ldVxKey (h : Alike s s') (x : Reg) : AlikeOutcome (exec (.ldVxKey x) s) (exec (.ldVxKey x) s') := by
  obtain ⟨a, d, k, rfl, hk⟩ := h
  simp only [exec, execLdVxKey]
  cases lowestKey s.keys <;> exact ⟨a, d, k, rfl, hk⟩

theorem Alike.rnd (h : Alike s s') (x : Reg) (kk : Byte) :
    AlikeOutcome (exec (.rnd x kk) s) (exec (.rnd x kk) s') := by
  cases hr : s.rndIn with
  | nil =>
    obtain ⟨a, d, k, rfl, hk⟩ := h
    rw [exec_rnd_free x kk hr, exec_rnd_free x kk (by exact hr)]
    exact ⟨a, d, k, rfl, hk⟩
  | cons b rest =>
    obtain ⟨a, d, k, rfl, hk⟩ := h
    rw [exec_rnd_supplied x kk hr, exec_rnd_supplied x kk (by exact hr)]
    exact ⟨a, d, k, rfl, hk⟩

end

/-! ## Every instruction -/

theorem exec_alike (i : Instr) {s s' : State} (h : Alike s s') : AlikeOutcome (exec i s) (exec i s') := by
  have halike := h
  obtain ⟨a, d, k, rfl, hk⟩ := h
  cases i
  case ret => exact halike.ret
  case call nnn => exact halike.call nnn
  case skp x => exact halike.keySkip x true
  case sknp x => exact halike.keySkip x false
  case ldVxKey x => exact halike.ldVxKey x
  case rnd x kk => exact halike.rnd x kk
  case seImm x kk => exact alikeOutcome_next (halike.skipIf _)
  case sneImm x kk => exact alikeOutcome_next (halike.skipIf _)
  case seReg x y => exact alikeOutcome_next (halike.skipIf _)
  case sneReg x y => exact alikeOutcome_next (halike.skipIf _)
  case drw x y n => exact halike.withAccess n (alikeOutcome_next ⟨a, true, k, rfl, hk⟩)
  case loadRegs x => exact halike.withAccess (x.val + 1) (alikeOutcome_next ⟨a, d, k, rfl, hk⟩)
  case ldBcd x => exact halike.withAccess 3 (alikeOutcome_next (halike.writeBytes _ _).advance)
  case storeRegs x =>
    exact halike.withAccess (x.val + 1) (alikeOutcome_next ((halike.writeBytes _ _).bumpI x).advance)
  case cls => exact alikeOutcome_next ⟨a, true, k, rfl, hk⟩
  case ldStVx x => exact alikeOutcome_next ⟨s.readV x, d, k, rfl, hk⟩
  all_goals exact alikeOutcome_next ⟨a, d, k, rfl, hk⟩

/-! ## The statement -/

theorem Alike.keptBut {s s' : State} (h : Alike s s') : KeptBut [.st, .dirty, .stack] s s' := by
  obtain ⟨a, d, k, rfl, -⟩ := h
  exact keptBut_of_fields (by simp [Elem.kept, State.readByte, State.readV])

theorem Alike.live {s s' : State} (h : Alike s s') (j : Fin 16) (hj : j.val < s.sp.val) : s'.stack[j] = s.stack[j] := by
  obtain ⟨a, d, k, rfl, hk⟩ := h
  exact hk j hj

/-- Settles O15: every instruction takes states alike to outcomes alike. -/
theorem writeOnlyStateIsNotObservable : Obligations.WriteOnlyStateIsNotObservable := by
  intro i s s' a d k hs' hk
  have h : AlikeOutcome (exec i s) (exec i s') := exec_alike i ⟨a, d, k, hs', hk⟩
  refine ⟨fun f hf => AlikeOutcome.of_fault (hf ▸ h), fun t ht => ?_⟩
  obtain ⟨t', ht', halike⟩ := AlikeOutcome.of_next (ht ▸ h)
  exact ⟨t', ht', halike.keptBut, halike.live⟩

end Sys2Proof.Machine
end

section
/-! PROOFS. The call, the jump with an offset and the skips of 41_flow.md, and the key instructions of
45_keypad_timers.md (R200 to R202). -/

namespace Sys2Proof.Machine

/-! ## Call -/

/-- Settles O23, from the two outcomes of a call and its frame. -/
theorem callPushesTheReturnAddress : Obligations.CallPushesTheReturnAddress := by
  refine fun nnn s => ⟨exec_call_full, fun hs => ?_⟩
  have hcall := exec_call_room (nnn := nnn) hs
  obtain ⟨hframe, -⟩ := writesOnly_of_call hcall
  refine ⟨_, hcall, zextNNN_toNat nnn, rfl, ?top, fun k hk => ?other, hframe⟩
  case top => exact Vector.getElem_set_self hs
  case other => exact Vector.getElem_set_ne hs k.isLt hk.symm

/-- Settles O24: the entry that the call pushes is the one that the return pops. -/
theorem returnAfterCallGoesToTheNextInstruction : Obligations.ReturnAfterCallGoesToTheNextInstruction := by
  intro nnn s t h
  obtain ⟨hs, rfl⟩ := exec_call_eq_next h
  refine ⟨_, exec_ret_live (Nat.succ_pos s.sp.val), ?pc, rfl, fun k hk => ?live, ?frame⟩
  case pc => exact Vector.getElem_set_self hs
  case live => exact Vector.getElem_set_ne hs k.isLt hk.ne'
  case frame => exact keptBut_of_fields (by simp [Elem.kept, State.readByte, State.readV])

/-! ## Jump with an offset -/

theorem exec_jpV0 (nnn : BitVec 12) (s : State) :
    exec (.jpV0 nnn) s = .next (s.setPc (zextNNN nnn + zextByte (s.readV 0))) := rfl

/-- Settles O26: the target is a sum that does not wrap. -/
theorem jumpWithOffsetAddsV0 : Obligations.JumpWithOffsetAddsV0 := by
  intro nnn s
  obtain ⟨hframe, -⟩ := writesOnly_setPc s (zextNNN nnn + zextByte (s.readV 0))
  exact ⟨_, exec_jpV0 nnn s, jpV0_target_toNat nnn (s.readV 0), hframe⟩

/-! ## Skips -/

/-- An instruction that skips on the condition `P` moves the pc and nothing else. -/
theorem exists_next_of_skipIf {i : Instr} {s : State} {c : Bool} (P : Prop) [Decidable P]
    (h : exec i s = .next (s.skipIf c)) (hc : c = true ↔ P) :
    ∃ t, exec i s = .next t ∧ KeptBut [.pc] s t ∧ t.pc = if P then s.pc + 4 else s.pc + 2 := by
  obtain ⟨hframe, -⟩ := writesOnly_skipIf s c
  exact ⟨_, h, hframe, (s.skipIf_pc c).trans (by simp only [hc])⟩

/-- An instruction that skips unless `P` holds. -/
theorem exists_next_of_skipIf_not {i : Instr} {s : State} {c : Bool} (P : Prop) [Decidable P]
    (h : exec i s = .next (s.skipIf c)) (hc : c = true ↔ ¬ P) :
    ∃ t, exec i s = .next t ∧ KeptBut [.pc] s t ∧ t.pc = if P then s.pc + 2 else s.pc + 4 := by
  obtain ⟨t, ht, hframe, hpc⟩ := exists_next_of_skipIf (¬ P) h hc
  exact ⟨t, ht, hframe, hpc.trans (ite_not ..)⟩

section
variable (x y : Reg) (kk : Byte) (s : State)

theorem exec_seImm : exec (.seImm x kk) s = .next (s.skipIf (decide (s.readV x = kk))) := rfl

theorem exec_sneImm : exec (.sneImm x kk) s = .next (s.skipIf (decide (s.readV x ≠ kk))) := rfl

theorem exec_seReg : exec (.seReg x y) s = .next (s.skipIf (decide (s.readV x = s.readV y))) := rfl

theorem exec_sneReg : exec (.sneReg x y) s = .next (s.skipIf (decide (s.readV x ≠ s.readV y))) := rfl

end

/-- Settles O25: the four conditions are equality and its negation, on bytes as on their numbers. -/
theorem compareSkipsTestEquality : Obligations.CompareSkipsTestEquality := by
  refine fun x y kk s => ⟨exists_next_of_skipIf _ (exec_seImm x kk s) ?_,
    exists_next_of_skipIf_not _ (exec_sneImm x kk s) ?_, exists_next_of_skipIf _ (exec_seReg x y s) ?_,
    exists_next_of_skipIf_not _ (exec_sneReg x y s) ?_⟩
  all_goals rw [decide_eq_true_iff, BitVec.toNat_inj]

/-! ## Keys -/

/-- Settles O47, from the two outcomes of the key test. -/
theorem keySkipsTestTheSnapshot : Obligations.KeySkipsTestTheSnapshot := by
  refine fun x s => ⟨fun hx => ⟨State.keySkip_outOfRange hx true, State.keySkip_outOfRange hx false⟩, fun k hk => ?_⟩
  exact ⟨exists_next_of_skipIf _ (State.keySkip_key hk true) (by simp),
    exists_next_of_skipIf_not _ (State.keySkip_key hk false) (by simp)⟩

/-- Settles O48: the wait is no change at all, and a reported key is one result. -/
theorem keyWaitTakesTheLowestKey : Obligations.KeyWaitTakesTheLowestKey := by
  refine fun x s => ⟨exec_ldVxKey_none x, fun k hk hlow => ?_⟩
  have hnumber : (BitVec.ofNat 8 k.val).toNat = k.val := by
    rw [BitVec.toNat_ofNat, Nat.mod_eq_of_lt (by omega)]
  exact exists_next_of_result (·.toNat = k.val) (exec_ldVxKey_some x hk hlow) hnumber

end Sys2Proof.Machine
end

section
/-! PROOFS. The flag-writing instructions of 42_alu.md (R146 to R150) and the random byte (R151, 10_state.md section
13). -/

namespace Sys2Proof.Machine

/-! ## A result and a flag -/

section
variable (s : State) (x : Reg) (r f : Byte)

@[simp] theorem State.readV_resultThenFlag_vf : (s.resultThenFlag x r f).readV vf = f :=
  State.readV_writeV_same (s.writeV x r) vf f

/-- With the flag written last, the result stays unless `x` is F. -/
theorem State.readV_resultThenFlag_same (hx : x ≠ vf) : (s.resultThenFlag x r f).readV x = r :=
  (State.readV_writeV_other (s.writeV x r) f hx).trans (s.readV_writeV_same x r)

@[simp] theorem State.readV_flagThenResult_same : (s.flagThenResult x r f).readV x = r :=
  State.readV_writeV_same (s.writeV vf f) x r

/-- With the result written last, the flag stays unless `x` is F. -/
theorem State.readV_flagThenResult_vf (hx : x ≠ vf) : (s.flagThenResult x r f).readV vf = f :=
  (State.readV_writeV_other (s.writeV vf f) r hx.symm).trans (s.readV_writeV_same vf f)

end

/-- An instruction that writes the flag `f`, then the result `r`, and does `next` (42_alu.md R147 to R150). -/
theorem exists_next_of_flagThenResult {i : Instr} {s : State} {x : Reg} {r f : Byte} (P Q : Byte → Prop)
    (h : exec i s = .next (s.flagThenResult x r f)) (hr : P r) (hf : Q f) :
    ∃ t, exec i s = .next t ∧ P (t.readV x) ∧ (x ≠ vf → Q (t.readV vf)) ∧ RegsKeptBut [x, vf] s t ∧
      t.pc = s.pc + 2 ∧ KeptBut [.v, .pc] s t := by
  obtain ⟨hframe, hregs⟩ := writesOnly_flagThenResult s x r f
  refine ⟨_, h, ?_, fun hx => ?_, hregs, rfl, hframe⟩
  · rwa [s.readV_flagThenResult_same x r f]
  · rwa [s.readV_flagThenResult_vf x r f hx]

/-! ## What each instruction is -/

section
variable (x y : Reg) (s : State)

theorem exec_addReg : exec (.addReg x y) s =
    .next (s.resultThenFlag x (sum8 (s.readV x) (s.readV y)) (carryFlag (s.readV x) (s.readV y))) := rfl

theorem exec_subReg : exec (.subReg x y) s =
    .next (s.flagThenResult x (diff8 (s.readV x) (s.readV y)) (greaterFlag (s.readV x) (s.readV y))) := rfl

theorem exec_subnReg : exec (.subnReg x y) s =
    .next (s.flagThenResult x (diff8 (s.readV y) (s.readV x)) (greaterFlag (s.readV y) (s.readV x))) := rfl

theorem exec_shr : exec (.shr x y) s = .next (s.flagThenResult x (s.readV x >>> 1) (bit0Flag (s.readV x))) := rfl

theorem exec_shl : exec (.shl x y) s = .next (s.flagThenResult x (s.readV x <<< 1) (bit7Flag (s.readV x))) := rfl

end

/-! ## The flags as numbers -/

section
variable (a b : Byte)

theorem carryFlag_toNat : (carryFlag a b).toNat = if 255 < a.toNat + b.toNat then 1 else 0 := by
  simp [carryFlag, flagByte_toNat]

theorem greaterFlag_toNat : (greaterFlag a b).toNat = if b.toNat < a.toNat then 1 else 0 := by
  simp [greaterFlag, flagByte_toNat]

theorem bit0Flag_toNat : (bit0Flag a).toNat = a.toNat % 2 := by
  rw [bit0Flag, BitVec.toNat_and]
  exact Nat.and_one_is_mod a.toNat

/-- Bit 7 of a byte is set in the upper half of its range. -/
theorem bit7Flag_toNat : (bit7Flag a).toNat = a.toNat / 128 := by
  have hlt : a.toNat < 256 := a.isLt
  have hset : a &&& 0x80 ≠ 0 ↔ 128 ≤ a.toNat := by
    rw [show a &&& 0x80 = if a.msb then 0x80 else 0 from BitVec.and_twoPow a 7, BitVec.msb_eq_decide]
    by_cases ha : 128 ≤ a.toNat <;> simp [ha]
  simp only [bit7Flag, flagByte_toNat, hset, decide_eq_true_eq]
  split <;> omega

theorem shiftRight_one_toNat : (a >>> 1).toNat = a.toNat / 2 := by
  rw [BitVec.toNat_ushiftRight, Nat.shiftRight_eq_div_pow, pow_one]

theorem shiftLeft_one_toNat : (a <<< 1).toNat = 2 * a.toNat % 256 := by
  rw [BitVec.toNat_shiftLeft, Nat.shiftLeft_eq, pow_one, Nat.mul_comm]

end

/-! ## The statements -/

/-- Settles O30: the carry is written after the sum. -/
theorem addRegistersSetsTheCarry : Obligations.AddRegistersSetsTheCarry := by
  intro x y s
  obtain ⟨hframe, hregs⟩ := writesOnly_resultThenFlag s x (sum8 (s.readV x) (s.readV y))
    (carryFlag (s.readV x) (s.readV y))
  refine ⟨_, exec_addReg x y s, fun hx => ?sum, ?carry, hregs, rfl, hframe⟩
  case sum => rw [s.readV_resultThenFlag_same x _ _ hx, sum8_toNat]
  case carry => rw [s.readV_resultThenFlag_vf, carryFlag_toNat]

/-- Settles O31: each is a flag and then a difference. -/
theorem subtractionsSetTheStrictFlag : Obligations.SubtractionsSetTheStrictFlag := fun x y s =>
  ⟨exists_next_of_flagThenResult (·.toNat = _) (·.toNat = _) (exec_subReg x y s) (diff8_toNat _ _)
      (greaterFlag_toNat _ _),
    exists_next_of_flagThenResult (·.toNat = _) (·.toNat = _) (exec_subnReg x y s) (diff8_toNat _ _)
      (greaterFlag_toNat _ _)⟩

/-- Settles O32: each is a flag and then a shifted byte. -/
theorem shiftsKeepTheBitShiftedOut : Obligations.ShiftsKeepTheBitShiftedOut := fun x y s =>
  ⟨exists_next_of_flagThenResult (·.toNat = _) (·.toNat = _) (exec_shr x y s) (shiftRight_one_toNat _)
      (bit0Flag_toNat _),
    exists_next_of_flagThenResult (·.toNat = _) (·.toNat = _) (exec_shl x y s) (shiftLeft_one_toNat _)
      (bit7Flag_toNat _)⟩

/-! ## The random byte -/

/-- A byte under a mask has no bit outside the mask. -/
theorem getLsbD_and_mask {b kk : Byte} {k : Nat} (h : kk.getLsbD k = false) : (b &&& kk).getLsbD k = false := by
  rw [BitVec.getLsbD_and, h, Bool.and_false]

/-- Settles O33, on the supply: a byte that is supplied, or a free one. -/
theorem randomByteIsMaskedAndConsumed : Obligations.RandomByteIsMaskedAndConsumed := by
  intro x kk s
  cases hr : s.rndIn with
  | nil =>
    have hrnd := exec_rnd_free x kk hr
    obtain ⟨hframe, hregs⟩ := exec_writesOnly hrnd
    have hv := State.readV_result_same { s with draws := s.draws + 1 } x (Config.freeRnd s.draws &&& kk)
    refine ⟨_, hrnd, nofun, fun _ => ⟨hv, hr, rfl⟩, fun k hk => ?_, hregs, rfl, hframe⟩
    rw [hv, getLsbD_and_mask hk]
  | cons b rest =>
    have hrnd := exec_rnd_supplied x kk hr
    obtain ⟨hframe, hregs⟩ := exec_writesOnly hrnd
    have hv := State.readV_result_same { s with rndIn := rest } x (b &&& kk)
    refine ⟨_, hrnd, fun b' rest' h => ?_, nofun, fun k hk => ?_, hregs, rfl, hframe⟩
    · cases h
      exact ⟨hv, rfl, rfl⟩
    · rw [hv, getLsbD_and_mask hk]

/-! ## The byte on the input of a STEP -/

/-- The supply is not empty while the instruction of a STEP runs, so no free byte is drawn. -/
theorem exec_draws_of_supplied {i : Instr} {s t : State} {b : Byte} {rest : List Byte} (hs : s.rndIn = b :: rest)
    (h : exec i s = .next t) : t.draws = s.draws := by
  by_cases hi : ∃ x kk, i = .rnd x kk
  · obtain ⟨x, kk, rfl⟩ := hi
    rw [exec_rnd_supplied x kk hs] at h
    cases h
    rfl
  · obtain ⟨hframe, -⟩ := exec_writesOnly h
    refine hframe .draws ?_
    cases i <;> simp_all [writesOf]

/-- A STEP of any other instruction than `Cxkk` does not depend on its byte. -/
theorem transact_step_byte_ignored {s : State} {w : Word} {i : Instr} (hf : s.fetch = .ok w) (hd : decode w = .ok i)
    (hi : ∀ x kk, i ≠ .rnd x kk) (r r' : Byte) : transact (.step r) s = transact (.step r') s := by
  have hexec (q : Byte) : exec i { s with loadOpen := false, rndIn := q :: s.rndIn } = _ :=
    exec_withRndIn i hi s.closeLoad (q :: s.rndIn)
  cases he : exec i s.closeLoad with
  | next t =>
    simp only [he] at hexec
    rw [transact_step_next r hf hd (hexec r), transact_step_next r' hf hd (hexec r')]
  | fault f =>
    simp only [he] at hexec
    rw [transact_step_fault r hf hd (hexec r), transact_step_fault r' hf hd (hexec r')]
  | refused q => exact absurd he (exec_not_refused i s.closeLoad q)

/-- Settles O34: the STEP's byte stands in front of the supply, where `Cxkk` takes it and nothing else looks. -/
theorem stepInputFeedsTheRandomInstruction : Obligations.StepInputFeedsTheRandomInstruction := by
  refine fun s r => ⟨fun x kk hf => ?rnd, fun reply t h => ?supply, fun i hf hwf hi r' => ?other⟩
  case other => exact transact_step_byte_ignored hf (decode_encode hwf) hi r r'
  case supply =>
    rcases transact_step_cases h with ⟨f, -, rfl⟩ | ⟨i, w, u, -, -, he, rfl, -⟩
    · exact ⟨rfl, rfl⟩
    · have hdraws := exec_draws_of_supplied rfl he
      exact ⟨rfl, hdraws⟩
  case rnd =>
    have hrnd := exec_rnd_supplied (s := { s with loadOpen := false, rndIn := r :: s.rndIn }) x kk rfl
    refine ⟨_, transact_step_next r hf (decode_encode rfl) hrnd, ?_, ?_, rfl, ?_⟩
    · exact State.readV_result_same _ x _
    · exact fun q hq => State.readV_writeV_other _ _ (by simpa using hq)
    · exact keptBut_of_fields (by simp [Elem.kept, State.readByte, State.readV, State.result])

end Sys2Proof.Machine
end

section
/-! PROOFS. The two index loads of 43_index_memory.md (R170, R172), the dump and the load together (R174, R175), and a
store that the next fetch sees (20_memory.md R64). -/

namespace Sys2Proof.Machine

/-! ## The index loads -/

/-- An instruction that loads I with `w` and does `next`. -/
theorem exists_next_of_setI {i : Instr} {s : State} {w : Word} {n : Nat} (h : exec i s = .next (s.setI w).advance)
    (hw : w.toNat = n) : ∃ t, exec i s = .next t ∧ t.i.toNat = n ∧ t.pc = s.pc + 2 ∧ KeptBut [.i, .pc] s t := by
  obtain ⟨hframe, -⟩ := (writesOnly_setI s w).advance
  exact ⟨_, h, hw, rfl, hframe⟩

theorem exec_ldI (nnn : BitVec 12) (s : State) : exec (.ldI nnn) s = .next (s.setI (zextNNN nnn)).advance := rfl

theorem exec_ldFont (x : Reg) (s : State) :
    exec (.ldFont x) s = .next (s.setI (BitVec.ofNat 16 (fontBase + 5 * (s.readV x).toNat))).advance := rfl

/-- Settles O35: I is the immediate. -/
theorem loadIndexSetsI : Obligations.LoadIndexSetsI :=
  fun nnn s => exists_next_of_setI (exec_ldI nnn s) (zextNNN_toNat nnn)

/-- The address of a glyph has 16 bits, whatever the byte is. -/
theorem fontAddress_toNat (b : Byte) : (BitVec.ofNat 16 (fontBase + 5 * b.toNat)).toNat = 5 * b.toNat := by
  have hb : b.toNat < 2 ^ 8 := b.isLt
  rw [BitVec.toNat_ofNat, Nat.zero_add, Nat.mod_eq_of_lt (by omega)]

/-- Settles O37: I is five times the byte. -/
theorem fontAddressIsFiveTimesVx : Obligations.FontAddressIsFiveTimesVx :=
  fun x s => exists_next_of_setI (exec_ldFont x s) (fontAddress_toNat (s.readV x))

/-! ## A dump that completed -/

/-- Inversion: what a completed dump stored, and where. -/
theorem exec_storeRegs_eq_next {x : Reg} {s t : State} (hm : s.memWf) (h : exec (.storeRegs x) s = .next t) :
    s.i.toNat + x.val < memSize ∧ (∀ k : Reg, k ≤ x → t.readByte (s.addrI k.val) = s.readV k) ∧ t.pc = s.pc + 2 := by
  have hin : s.i.toNat + x.val < memSize := by
    obtain ⟨hin, -⟩ := State.withAccess_eq_next h
    exact hin.resolve_left (Nat.succ_ne_zero _)
  obtain ⟨t', ht', hstored, -, -, hpc, -⟩ := (registerDumpStoresV0ToVx x s hm).2 hin
  cases h.symm.trans ht'
  exact ⟨hin, hstored, hpc⟩

/-- Settles O41: register k comes back from byte k at I. -/
theorem dumpThenLoadRestoresTheRegisters : Obligations.DumpThenLoadRestoresTheRegisters := by
  intro x s t v' hm h
  obtain ⟨hin, hstored, -⟩ := exec_storeRegs_eq_next hm h
  obtain ⟨u, hu, hlow, hhigh, -, -, hframe⟩ := (registerLoadReadsV0ToVx x { t with i := s.i, v := v' }).2 hin
  exact ⟨u, hu, fun k hk => (hlow k hk).trans (hstored k hk), hhigh, hframe .mem (by simp)⟩

/-- Settles O42: the next word's bytes are among those dumped. -/
theorem storeIsSeenByTheNextFetch : Obligations.StoreIsSeenByTheNextFetch := by
  intro x j k s t hm hjk hkx haddr h
  obtain ⟨hin, hstored, hpc⟩ := exec_storeRegs_eq_next hm h
  have hkx' : k.val ≤ x.val := hkx
  have hjx : j ≤ x := Fin.le_def.2 (by omega)
  have hj : s.i.toNat + j.val = s.pc.toNat + 2 := haddr
  have hnext : t.pc.toNat = s.addrI j.val := by
    rw [hpc, (toNat_pc_add (by omega)).1, haddr]
  have hnext' : t.pc.toNat + 1 = s.addrI k.val := by
    rw [hnext, State.addrI, State.addrI, hjk, Nat.add_assoc]
  have hfits : t.pc.toNat + 1 < memSize := by
    rw [hnext', State.addrI]
    omega
  rw [State.fetch_ok hfits, hnext', hnext, hstored j hjx, hstored k hkx]

end Sys2Proof.Machine
end

section
/-! PROOFS. DRW and the compositor's law of 44_display.md (R191, R192 a). -/

namespace Sys2Proof.Machine

/-! ## What a draw does -/

/-- The cells that `Dxyn` toggles: those under a set bit of the sprite at I, at (Vx, Vy). -/
def State.Covers (s : State) (x y : Reg) (n : Nat) (cx : Fin 64) (cy : Fin 32) : Prop :=
  underSprite (s.sprite n) (s.readV x).toNat (s.readV y).toNat cx cy

/-- The state after the draw (44_display.md R191). -/
def State.afterDraw (s : State) (x y : Reg) (n : Nat) : State :=
  ((s.setDisp (s.drawn x y n).1).writeV vf (collisionFlag (s.drawn x y n).2)).advance

theorem exec_drw (x y : Reg) (n : Nat) (s : State) :
    exec (.drw x y n) s = s.withAccess n (.next (s.afterDraw x y n)) := rfl

theorem State.sprite_length (s : State) (n : Nat) : (s.sprite n).length = n := s.readBytes_length _ n

section
variable (s : State) (x y : Reg) {n : Nat} (hn : n < 16)
include hn

theorem State.sprite_length_le : (s.sprite n).length ≤ 32 := by
  rw [s.sprite_length]
  omega

theorem State.afterDraw_covered {cx : Fin 64} {cy : Fin 32} (h : s.Covers x y n cx cy) :
    (s.afterDraw x y n).disp.cell cx cy = !s.disp.cell cx cy :=
  drawSprite_under s.disp _ _ (s.sprite_length_le hn) h

theorem State.afterDraw_uncovered {cx : Fin 64} {cy : Fin 32} (h : ¬ s.Covers x y n cx cy) :
    (s.afterDraw x y n).disp.cell cx cy = s.disp.cell cx cy :=
  drawSprite_outside s.disp _ _ (s.sprite_length_le hn) h

theorem State.drawn_collides_iff :
    (s.drawn x y n).2 = true ↔ ∃ cx cy, s.Covers x y n cx cy ∧ s.disp.cell cx cy = true :=
  drawSprite_collision s.disp _ _ (s.sprite_length_le hn)

end

theorem State.afterDraw_vf (s : State) (x y : Reg) (n : Nat) :
    (s.afterDraw x y n).readV vf = flagByte (s.drawn x y n).2 :=
  State.readV_writeV_same (s.setDisp _) vf _

theorem flagByte_eq_one_iff {b : Bool} : flagByte b = 1 ↔ b = true := by
  cases b <;> decide

theorem flagByte_eq_zero_iff {b : Bool} : flagByte b = 0 ↔ b = false := by
  cases b <;> decide

/-- VF after a draw tells whether some covered cell was 1. -/
theorem State.afterDraw_vf_eq_one_iff (s : State) (x y : Reg) {n : Nat} (hn : n < 16) :
    (s.afterDraw x y n).readV vf = 1 ↔ ∃ cx cy, s.Covers x y n cx cy ∧ s.disp.cell cx cy = true := by
  rw [s.afterDraw_vf, flagByte_eq_one_iff, s.drawn_collides_iff x y hn]

theorem State.afterDraw_vf_zero_or_one (s : State) (x y : Reg) (n : Nat) :
    (s.afterDraw x y n).readV vf = 0 ∨ (s.afterDraw x y n).readV vf = 1 := by
  rw [s.afterDraw_vf, flagByte_eq_zero_iff, flagByte_eq_one_iff]
  exact Bool.eq_false_or_eq_true _ |>.symm

/-- Settles O44, from the check of the sprite's bytes and what the draw does to each cell and to VF. -/
theorem drawTogglesTheSpriteCells : Obligations.DrawTogglesTheSpriteCells := by
  refine fun x y n s hn => ⟨fun h0 hout => State.withAccess_of_gt h0 (by omega) _, fun hin => ?_⟩
  have hdraw : exec (.drw x y n) s = .next (s.afterDraw x y n) := State.withAccess_of_le (by omega) _
  obtain ⟨hframe, hregs⟩ := exec_writesOnly hdraw
  refine ⟨_, hdraw, fun cx cy => ⟨s.afterDraw_covered x y hn, s.afterDraw_uncovered x y hn⟩, ?one, ?zero, rfl, hregs,
    rfl, hframe⟩
  case one => exact (s.afterDraw_vf_eq_one_iff x y hn).2
  case zero =>
    intro hblank
    refine (s.afterDraw_vf_zero_or_one x y n).resolve_right fun hone => ?_
    obtain ⟨cx, cy, hcov, hcell⟩ := (s.afterDraw_vf_eq_one_iff x y hn).1 hone
    simp [hblank cx cy hcov] at hcell

/-! ## The same sprite drawn again -/

/-- A draw leaves the sprite, and so with the same coordinates the cells under it. -/
theorem State.covers_afterDraw {s : State} {x y : Reg} {n : Nat} (hx : (s.afterDraw x y n).readV x = s.readV x)
    (hy : (s.afterDraw x y n).readV y = s.readV y) : (s.afterDraw x y n).Covers x y n = s.Covers x y n := by
  have hsprite : (s.afterDraw x y n).sprite n = s.sprite n := rfl
  funext cx cy
  rw [State.Covers, State.Covers, hx, hy, hsprite]

/-- Settles O45: a covered cell is toggled twice, and collides the second time when it was 0 at first. -/
theorem drawingTwiceRestoresTheDisplay : Obligations.DrawingTwiceRestoresTheDisplay := by
  intro x y n s t hn h hx hy
  obtain ⟨hin, ht⟩ := State.withAccess_eq_next h
  cases ht
  have hcov := State.covers_afterDraw hx hy
  have hagain : exec (.drw x y n) (s.afterDraw x y n) = .next ((s.afterDraw x y n).afterDraw x y n) :=
    State.withAccess_of_le (s := s.afterDraw x y n) hin _
  refine ⟨_, hagain, fun cx cy => ?cell, ?flag, State.afterDraw_vf_zero_or_one _ x y n⟩
  case cell =>
    by_cases hc : s.Covers x y n cx cy
    · rw [State.afterDraw_covered _ x y hn (hcov ▸ hc), s.afterDraw_covered x y hn hc, Bool.not_not]
    · rw [State.afterDraw_uncovered _ x y hn (hcov ▸ hc), s.afterDraw_uncovered x y hn hc]
  case flag =>
    rw [State.afterDraw_vf_eq_one_iff _ x y hn, hcov]
    refine exists_congr fun cx => exists_congr fun cy => and_congr_right fun hc => ?_
    rw [s.afterDraw_covered x y hn hc, Bool.not_eq_true']

end Sys2Proof.Machine
end

section
/-! PROOFS. The host's commands: any number of DECAYs (60_exceptions.md R232), SET_KEYS and ACK_DIRTY (40_step_cycle.md
R108), LOAD and the start of a program (70_reset_and_hazards.md R262, R263). -/

namespace Sys2Proof.Machine

/-! ## Any number of DECAYs -/

/-- `n` DECAYs take `n` from the delay timer, never going below zero. -/
theorem applyDecay_iterate_dt_toNat (n : Nat) (s : State) : (applyDecay^[n] s).dt.toNat = s.dt.toNat - n := by
  induction n with
  | zero => rfl
  | succ n ih => rw [Function.iterate_succ_apply', applyDecay_dt_toNat, ih, Nat.sub_sub]

theorem keptBut_applyDecay_iterate (n : Nat) (s : State) : KeptBut [.dt, .st] s (applyDecay^[n] s) := by
  induction n with
  | zero => exact .refl _ s
  | succ n ih =>
    rw [Function.iterate_succ_apply']
    exact ih.trans (keptBut_applyDecay _)

/-- Settles O52, by induction on the number of DECAYs. -/
theorem repeatedDecayStopsAtZero : Obligations.RepeatedDecayStopsAtZero := fun n s =>
  ⟨_, serve_replicate_decay n s, applyDecay_iterate_dt_toNat n s, applyDecay_iterate_st_toNat n s,
    keptBut_applyDecay_iterate n s⟩

/-! ## The commands that write one element -/

theorem keptBut_applySetKeys (k : Vector Bool 16) (s : State) : KeptBut [.keys] s (applySetKeys k s) :=
  keptBut_of_fields (by simp [Elem.kept, applySetKeys, State.readByte, State.readV])

theorem keptBut_applyAckDirty (s : State) : KeptBut [.dirty] s (applyAckDirty s) :=
  keptBut_of_fields (by simp [Elem.kept, applyAckDirty, State.readByte, State.readV])

/-- Settles O53: each of the two commands is one write. -/
theorem setKeysAndAckDirtyWriteOneElement : Obligations.SetKeysAndAckDirtyWriteOneElement := fun k s =>
  ⟨⟨applySetKeys k s, rfl, rfl, keptBut_applySetKeys k s⟩, ⟨applyAckDirty s, rfl, rfl, keptBut_applyAckDirty s⟩⟩

/-! ## LOAD -/

/-- The state after a ROM is copied to 0x200 (70_reset_and_hazards.md R262). -/
def State.withRom (s : State) (rom : List Byte) : State := (s.writeBytes progBase rom).closeLoad

section
variable {s : State} {rom : List Byte}

theorem transact_load_ok (ho : s.loadOpen = true) (hl : rom.length ≤ romMax) :
    transact (.load rom) s = .ok (.ok, s.withRom rom) := by
  simp [transact, applyCommand, applyLoad_ok ho hl, okReply, State.withRom]

theorem transact_load_tooLarge (ho : s.loadOpen = true) (hl : romMax < rom.length) :
    transact (.load rom) s = .ok (.fault (.romTooLarge rom.length), s) :=
  transact_eq_fault_iff.2 ⟨applyLoad_tooLarge ho hl, rfl⟩

theorem transact_load_refused (ho : s.loadOpen = false) : transact (.load rom) s = .error .loadWithoutReset := by
  simp [transact, applyCommand, applyLoad_refused ho]

theorem State.withRom_readByte_at (hm : s.memWf) (hl : rom.length ≤ romMax) (k : Nat) (hk : k < rom.length) :
    (s.withRom rom).readByte (progBase + k) = rom[k] :=
  State.readByte_writeBytes_at hm progBase rom (progBase_add_le hl) k hk

theorem State.withRom_memKeptOutside (hm : s.memWf) (hl : rom.length ≤ romMax) :
    MemKeptOutside progBase rom.length s (s.withRom rom) :=
  State.readByte_writeBytes_outside hm progBase rom (progBase_add_le hl)

end

theorem keptBut_withRom (s : State) (rom : List Byte) : KeptBut [.mem, .loadOpen] s (s.withRom rom) :=
  keptBut_of_fields (by simp [Elem.kept, State.withRom])

/-- Settles O54, on the three outcomes of LOAD. -/
theorem loadCopiesTheRom : Obligations.LoadCopiesTheRom := by
  refine fun rom s hm => ⟨fun ho hl => ?_, transact_load_tooLarge, transact_load_refused⟩
  exact ⟨_, transact_load_ok ho hl, State.withRom_readByte_at hm hl, State.withRom_memKeptOutside hm hl, rfl,
    keptBut_withRom s rom⟩

/-! ## The start of a program -/

/-- Two commands that complete, served one after the other. -/
theorem serve_pair {c d : Command} {s t u : State} {p q : Reply} (hc : transact c s = .ok (p, t))
    (hd : transact d t = .ok (q, u)) : serve [c, d] s = .ok ([p, q], u) := by
  simp [serve, hc, hd]

/-- The first word of a ROM that was just copied. -/
theorem State.withRom_fetch {s : State} {a b : Byte} {rest : List Byte} (hm : s.memWf) (hpc : s.pc = 0x200)
    (hl : (a :: b :: rest).length ≤ romMax) : (s.withRom (a :: b :: rest)).fetch = .ok (wordOfBytes a b) := by
  have hpc' : (s.withRom (a :: b :: rest)).pc = 0x200 := (keptBut_withRom s _ .pc (by simp)).trans hpc
  have hbyte := State.withRom_readByte_at hm hl
  have ha : (s.withRom (a :: b :: rest)).readByte 0x200 = a := hbyte 0 (by simp)
  have hb : (s.withRom (a :: b :: rest)).readByte 0x201 = b := hbyte 1 (by simp)
  have hfits : (s.withRom (a :: b :: rest)).pc.toNat + 1 < memSize := by
    rw [hpc']
    decide
  rw [State.fetch_ok hfits, hpc']
  exact congrArg Except.ok (congrArg₂ wordOfBytes ha hb)

/-- Settles O56: RESET opens LOAD and sets the pc to where LOAD copies the ROM. -/
theorem bootFetchesTheFirstRomWord : Obligations.BootFetchesTheFirstRomWord := by
  intro s a b rest hl
  have hm : (applyReset s).memWf := State.memWf_resetWith s.cfg
  refine ⟨_, serve_pair (transact_reset s) (transact_load_ok rfl hl), ?pc, State.withRom_fetch hm rfl hl⟩
  case pc => exact keptBut_withRom (applyReset s) _ .pc (by simp)

end Sys2Proof.Machine
end
